-- ==== Sys2Proof/Word.lean ====
section
/-! DEFINITION. The word types of the block: bytes, register words, dimension fields (`00_scope.md` R4). -/

namespace Sys2Proof

/-- One byte: a channel value or a payload byte (R4 `CH_W`, R22, R23). -/
abbrev Byte := BitVec 8

/-- One host-visible register, and one byte address of PIX or PAY (R4 `REG_W`, `PIX_AW`, `PAY_AW`). -/
abbrev Word := BitVec 32

/-- The `DIM` field of `WIDTH` and of `HEIGHT` (R4 `DIM_W`). -/
abbrev Dim := BitVec 16

end Sys2Proof
end

