-- ==== Sys2Proof/Syntax.lean ====
section
/-! DEFINITION. The commands of HIDeer-LSB command set 1.0: one constructor per row of the opcode table
(`30_encoding.md` R47).  A command word carries no operand (R48), so no constructor has a field. -/

namespace Sys2Proof

/-- The three commands of rule R47. -/
inductive Instr where
  /-- `CAPACITY`, opcode 1 (R70). -/
  | capacity
  /-- `EMBED`, opcode 2 (R75). -/
  | embed
  /-- `EXTRACT`, opcode 3 (R85). -/
  | extract
  deriving DecidableEq, Repr

end Sys2Proof
end

