-- ==== Sys2Proof/WellFormed.lean ====
section
/-! DEFINITION. Which command words are legal (`30_encoding.md` R46), and the well-formedness of a command.
A command has no operand that could be out of range (R48), so every `Instr` is well-formed; what can be ill-formed is
the 32-bit word the host presents, and its two checks are the two fields of format `CMDW`. -/

namespace Sys2Proof

/-- Field `RSV`, bits 31:8, must be zero (R46). -/
def rsvZero (v : Word) : Bool := v.extractLsb' 8 24 == 0

/-- Field `OPC`, bits 7:0, must be 1, 2 or 3 (R46). -/
def opcKnown (v : Word) : Bool :=
  v.extractLsb' 0 8 == 1 || v.extractLsb' 0 8 == 2 || v.extractLsb' 0 8 == 3

/-- A legal command word (R46). -/
def legalWord (v : Word) : Bool := rsvZero v && opcKnown v

/-- Well-formedness of a command: there is no operand field and no immediate to check (R48). -/
def Instr.wellFormed : Instr → Bool
  | .capacity => true
  | .embed => true
  | .extract => true

end Sys2Proof
end

