-- ==== Sys2Proof/Decode.lean ====
section
/-! DEFINITION. The decoder of command words (`30_encoding.md` R50), total on every 32-bit word, and the encoder
written from the same opcode map (R47). -/

namespace Sys2Proof

/-- Why the decoder answers no command. -/
inductive Reject where
  /-- The word is illegal: opcode 0 or 4 to 255, or a reserved bit set (R49). -/
  | illegalCommand (v : Word)
  deriving DecidableEq, Repr

/-- `decode` of rule R50.  Every word is one whole command (R51); there is no prefix and no length rule. -/
def decode (v : Word) : Except Reject Instr :=
  if v = 0x00000001#32 then .ok .capacity
  else if v = 0x00000002#32 then .ok .embed
  else if v = 0x00000003#32 then .ok .extract
  else .error (.illegalCommand v)

/-- The command word of a command (R47, column `match`; its mask is all ones). -/
def encode : Instr → Word
  | .capacity => 0x00000001#32
  | .embed => 0x00000002#32
  | .extract => 0x00000003#32

/-- The command that the opcode number held in `OP` stands for (R24, R62); 0 stands for none. -/
def opInstr (op : BitVec 2) : Option Instr :=
  if op = 1#2 then some .capacity
  else if op = 2#2 then some .embed
  else if op = 3#2 then some .extract
  else none

/-- The table's word as the host presents it: its bits above `nbits` are zero. -/
def tableBits (nbits w : Nat) : Nat := w % 2 ^ nbits

/-- The command the decoder reads from a table row's `nbits` bits `w`.  A command is exactly one 32-bit word, so
a row with a bit above bit 31 stands for no command (R45, R51). -/
def decodeTableWord (nbits w : Nat) : Option Instr :=
  if tableBits nbits w < 2 ^ 32 then
    match decode (BitVec.ofNat 32 (tableBits nbits w)) with
    | .ok i => some i
    | .error _ => none
  else none

end Sys2Proof
end

