-- ==== Sys2Proof/Config.lean ====
section
/-! DEFINITION. What is open to each block and each run: the free values of the model.  None of them has a body, so
nothing can be proved of their values and every statement holds whatever they are. -/

namespace Sys2Proof

/-- The two byte memories (`20_memory.md` R30). -/
inductive Space where
  /-- The pixel memory (R22). -/
  | pix
  /-- The payload memory (R23). -/
  | pay
  deriving DecidableEq, Repr

/-- FREE VALUE (R28, R120, U4): what byte `a` of a memory holds after the `n`-th power-on, until something writes it.
DESIGN CHOICE, safe: see assumption 1. -/
opaque Config.powerOnByte (n : Nat) (sp : Space) (a : Nat) : Byte

/-- FREE VALUE (R121, U2): whether the byte at address `a`, which the command abandoned by the `n`-th reset of a busy
block could write, holds its new value (`true`) or the value it had at acceptance (`false`).
DESIGN CHOICE, safe: see assumption 2. -/
opaque Config.landed (n : Nat) (a : Nat) : Bool

end Sys2Proof
end

