-- ==== Sys2Proof/Machine/State.lean ====
section
/-! DEFINITION. The state of one block instance (`10_state.md` R10), the host's side of the interface as plain data,
the ways a step can stop, and the state after reset (R28). -/

namespace Sys2Proof.Machine

/-- A byte memory: the bytes something has written since power-on, addresses strictly rising.  An unlisted address
holds no written value (`Machine/Ops.lean` says what it reads as). -/
abbrev Memory := List Host.Cell

/-- What `STATUS.ERR` can hold (R100).  The codes 6 to 15 are never produced (R15), and here they cannot be
(DESIGN CHOICE, assumption 16). -/
inductive ErrKind where
  /-- Code 0: the command completed without error. -/
  | none
  /-- Code 1: a dimension is not positive (R71, R76, R88). -/
  | invalidDimensions
  /-- Code 2: payload and delimiter do not fit the grid (R77). -/
  | capacityExceeded
  /-- Code 3: the grid was scanned to its end without a delimiter (R94). -/
  | noHiddenMessage
  /-- Code 4: the bytes before the delimiter are not valid UTF-8 (R92). -/
  | invalidEncoding
  /-- Code 5: the command word is illegal (R49, R105). -/
  | illegalCommand
  deriving DecidableEq, Repr

/-- The two agents (R55). -/
inductive Agent where
  | host
  | engine
  deriving DecidableEq, Repr

/-- One action of the host's script (R55 and, for `wait`, R52). -/
inductive HostStep where
  /-- `RegRead(n)` (R56). -/
  | regRead (n : Nat)
  /-- `RegWrite(n, v)` (R57, R58). -/
  | regWrite (n : Nat) (v : Word)
  /-- `HostMemRead(space, a)` (R63). -/
  | memRead (sp : Space) (a : Word)
  /-- `HostMemWrite(space, a, v)` (R63). -/
  | memWrite (sp : Space) (a : Word) (v : Byte)
  /-- `WAIT`: repeat `RD STATUS` until the value read has `DONE = 1` (R52).  DESIGN CHOICE, assumption 15. -/
  | wait
  /-- Reset (R120, R121). -/
  | reset
  /-- Power removed and returned (R115, R120).  DEDUCED, assumption 6. -/
  | powerCycle
  deriving DecidableEq, Repr

/-- One value a read has returned to the host. -/
inductive Reading where
  /-- What `RegRead(n)` returned. -/
  | reg (n : Nat) (v : Word)
  /-- What `HostMemRead(space, a)` returned. -/
  | mem (sp : Space) (a : Word) (v : Byte)
  deriving DecidableEq, Repr

/-- The state.  The first eleven fields are the block's own (R10); the others are the model's: the host's script and
the schedule (R55), what the host has read, the platform's parameters (R29, R40), and the two counters the free
values are drawn by. -/
structure State where
  /-- `CFG.ALPHA` (R16). -/
  alpha : Bool
  /-- `WIDTH.DIM` (R17). -/
  width : Dim
  /-- `HEIGHT.DIM` (R18). -/
  height : Dim
  /-- `PAY_LEN` (R19). -/
  payLen : Word
  /-- `STATUS.BUSY` (R15), which is also the engine's phase (R24). -/
  busy : Bool
  /-- `STATUS.DONE` (R15). -/
  done : Bool
  /-- `STATUS.ERR` (R15, R100). -/
  err : ErrKind
  /-- `RESULT` (R20). -/
  result : Word
  /-- `OP`, the opcode of the command in execution; meaningless while idle (R24).  DESIGN CHOICE: 0 at reset
  (assumption 3). -/
  op : BitVec 2
  /-- `PIX`, the pixel memory (R22). -/
  pix : Memory
  /-- `PAY`, the payload memory (R23). -/
  pay : Memory
  /-- MODEL: the host's script, its next action first (R55, R68).  DESIGN CHOICE, assumption 4. -/
  script : List HostStep
  /-- MODEL: who moves, each time both agents could; when the list has run out the engine does (R55, R61).  DESIGN
  CHOICE, assumption 4. -/
  turns : List Agent
  /-- MODEL: what the host's reads have returned, the latest first (R56, R63).  DESIGN CHOICE, assumption 9. -/
  seen : List Reading
  /-- MODEL: `PIX_POP`, how many bytes of PIX the platform populates (R4, R29, R40).  DESIGN CHOICE, assumption 7. -/
  pixPop : Nat
  /-- MODEL: `PAY_POP`, how many bytes of PAY the platform populates (R4, R29, R40).  DESIGN CHOICE, assumption 7. -/
  payPop : Nat
  /-- MODEL: which power-on the memories' unwritten bytes date from (R120).  DESIGN CHOICE, assumptions 1 and 9. -/
  epoch : Nat
  /-- MODEL: how many old-or-new draws resets of a busy block have made (R121).  DESIGN CHOICE, assumptions 2 and
  9. -/
  draws : Nat
  deriving DecidableEq, Repr

/-- Reasons the machine stops with a fault. -/
inductive Fault where
  /-- Raised by the engine's step, and by a reset, in a state with `BUSY = 1` and `OP = 0`, which rule R62 says never
  occurs (DEDUCED, assumption 10): no step reaches such a state from one that is not (`State.Inv` in `Safety.lean`).  Safe. -/
  | busyWithoutOperation
  deriving DecidableEq, Repr

/-- Reasons a step has no meaning. -/
inductive Refusal where
  /-- An instruction without a meaning; no arm of `exec` answers with it.  Safe. -/
  | notModelled (mnemonic : String)
  /-- Raised by `HostMemRead` and `HostMemWrite` while `BUSY = 1`: rule R64 gives the access no meaning, and U1 says
  to refuse it.  Safe. -/
  | hostMemoryWhileBusy (sp : Space)
  /-- Raised by `HostMemRead` and `HostMemWrite` at an address the platform does not populate (R40; DEDUCED,
  assumption 8).  Safe. -/
  | hostMemoryUnpopulated (sp : Space)
  /-- Raised by `EMBED`, `EXTRACT` and the reset that abandons one of them, where the command would reach an address
  of `sp` the platform does not populate: rule R40 leaves it undefined, and U3 says to refuse it (when
  exactly is DEDUCED, assumption 7).  Safe. -/
  | commandUnpopulated (sp : Space)
  deriving DecidableEq, Repr

/-- The block right after power-on: the registers as rule R28 gives them, both memories with nothing written.  The
host's script is empty: a script is what the host brings to the block (DESIGN CHOICE, assumption 4).  `OP` is 0
(assumption 3), the platform populates every address (assumption 7), nothing has been read, and the counters stand at 0
(assumption 9): DESIGN CHOICE each. -/
def State.reset : State where
  alpha := false
  width := 0
  height := 0
  payLen := 0
  busy := false
  done := false
  err := .none
  result := 0
  op := 0
  pix := []
  pay := []
  script := []
  turns := []
  seen := []
  pixPop := 2 ^ 32
  payPop := 2 ^ 32
  epoch := 0
  draws := 0

end Sys2Proof.Machine
end

