-- ==== Sys2Proof/Machine/Ops.lean ====
section
/-! DEFINITION. The named operations: the byte memories in their one canonical form, what the host has read, and the
end of a command (`40_command_issue.md` R60, `60_exceptions.md` R104).

Reporting an error is the block's whole "exception entry" (R101): `reportError` is the one shared operation.  There is
no return from it (R106): the engine is idle again, and the next `CMD` write clears the report. -/

namespace Sys2Proof.Machine

/-! ### One byte memory -/

/-- The byte something has written at address `a`, if anything has. -/
def Memory.byteAt? : Memory → Nat → Option Byte
  | [], _ => none
  | (k, v) :: m, a => if k = a then some v else Memory.byteAt? m a

/-- Store byte `v` at address `a`, keeping the addresses strictly rising (R38: plain storage). -/
def Memory.put : Memory → Nat → Byte → Memory
  | [], a, v => [(a, v)]
  | (k, w) :: m, a, v =>
    if a < k then (a, v) :: (k, w) :: m
    else if a = k then (a, v) :: m
    else (k, w) :: Memory.put m a v

/-- The canonical form: addresses strictly rising, all of them 32-bit addresses (R22, R23).  No entry can equal what
an unlisted address holds, since an unlisted address holds no written value at all. -/
abbrev Memory.wf (m : Memory) : Prop :=
  m.Pairwise (fun x y => x.1 < y.1) ∧ ∀ c ∈ m, c.1 < 2 ^ 32

/-- What address `a` reads as: the written byte, else the byte `unwritten a` it held at power-on (R120, U4). -/
def Memory.read (unwritten : Nat → Byte) (m : Memory) (a : Nat) : Byte :=
  (m.byteAt? a).getD (unwritten a)

/-- The `n` bytes from address `a` on, in ascending order. -/
def Memory.readList (unwritten : Nat → Byte) (m : Memory) (a : Nat) : Nat → List Byte
  | 0 => []
  | n + 1 => m.read unwritten a :: Memory.readList unwritten m (a + 1) n

/-! ### The two memories of a state -/

/-- The memory of an address space. -/
def State.mem (s : State) : Space → Memory
  | .pix => s.pix
  | .pay => s.pay

/-- How many bytes of an address space the platform populates (R40). -/
def State.pop (s : State) : Space → Nat
  | .pix => s.pixPop
  | .pay => s.payPop

/-- The byte at address `a` of an address space: a total map (R22, R23). -/
def State.byte (s : State) (sp : Space) (a : Nat) : Byte :=
  (s.mem sp).read (Config.powerOnByte s.epoch sp) a

/-- The state with byte `v` stored at address `a` of an address space (R63). -/
def State.putByte (s : State) (sp : Space) (a : Nat) (v : Byte) : State :=
  match sp with
  | .pix => { s with pix := s.pix.put a v }
  | .pay => { s with pay := s.pay.put a v }

/-- The host has received a value. -/
def State.see (s : State) (r : Reading) : State := { s with seen := r :: s.seen }

/-! ### The end of a command -/

/-- The register part of the `Complete` step (R60): `RESULT`, `ERR`, `DONE <- 1`, `BUSY <- 0`. -/
def finish (s : State) (e : ErrKind) (res : Word) : State :=
  { s with result := res, err := e, done := true, busy := false }

/-- `complete_ok(v)`: the command ends without error (R7, R60). -/
def completeOk (s : State) (v : Word) : State := finish s .none v

/-- `raise <Kind>()`: the command ends with an error, `RESULT <- 0` (R7, R60, R104). -/
def reportError (s : State) (e : ErrKind) : State := finish s e 0

/-- The registers at their reset values; the memories and everything of the host's stay (R28, R120). -/
def clearRegisters (s : State) : State :=
  { s with
    alpha := false, width := 0, height := 0, payLen := 0, busy := false, done := false, err := .none, result := 0,
    op := 0 }

end Sys2Proof.Machine
end

