-- ==== Sys2Proof/Machine/Operands.lean ====
section
/-! DEFINITION. The operands of the three commands (`30_encoding.md` R48), all of them implicit: the grid the
registers describe, its slots and their addresses, the payload length, and which addresses a command reaches.
Everything is computed in unbounded integers (`00_scope.md` R5). -/

namespace Sys2Proof.Machine

/-- `w = sext_16(WIDTH.DIM)` (R17). -/
def gridWidth (s : State) : Int := s.width.toInt

/-- `h = sext_16(HEIGHT.DIM)` (R18). -/
def gridHeight (s : State) : Int := s.height.toInt

/-- The test of InvalidDimensions: `w <= 0 or h <= 0` (R71, R76, R88). -/
def dimsBad (s : State) : Bool := gridWidth s ≤ 0 || gridHeight s ≤ 0

/-- `T = w * h * 3`, the number of slots of a legal grid; the source's `total_bits` (R8, R70). -/
def slotCount (s : State) : Nat := (gridWidth s * gridHeight s * 3).toNat

/-- `usable_bytes = T div 8`, which is also `M`, the number of whole bytes of the LSB byte stream (R70, R86). -/
def wholeBytes (s : State) : Nat := slotCount s / 8

/-- `BPP = 3 + ALPHA`, the bytes of a pixel (R31). -/
def bytesPerPixel (alpha : Bool) : Nat := if alpha then 4 else 3

/-- `slot_addr(s)`, the PIX address of slot `n` (R33). -/
def slotAddr (alpha : Bool) (n : Nat) : Nat := n / 3 * bytesPerPixel alpha + n % 3

/-- `L`, the payload length EMBED takes (R19). -/
def payloadLength (s : State) : Nat := s.payLen.toNat

/-- `DELIM_LEN` (R4). -/
def delimLength : Nat := 9

/-- `N = 8 * (L + 9)`, the number of bits EMBED writes (R75, R77). -/
def bitsNeeded (s : State) : Nat := 8 * (payloadLength s + delimLength)

/-- Whether slots `0 .. n-1` all lie in populated PIX (R40); slot addresses rise, so the last one decides. -/
def slotsPopulated (s : State) (n : Nat) : Bool := n == 0 || slotAddr s.alpha (n - 1) < s.pixPop

/-- Whether payload bytes `0 .. n-1` all lie in populated PAY (R40). -/
def payPopulated (s : State) (n : Nat) : Bool := n ≤ s.payPop

/-- The address space in which a command that accesses `n` slots and `k` payload bytes would leave the populated
memory, if there is one (R40, U3).  DEDUCED, assumption 7. -/
def unpopulatedSpace (s : State) (n k : Nat) : Option Space :=
  if slotsPopulated s n = false then some .pix
  else if payPopulated s k = false then some .pay
  else none

end Sys2Proof.Machine
end

