-- ==== Sys2Proof/Machine/Capacity.lean ====
section
/-! DEFINITION. CAPACITY (`41_capacity.md` R70 to R74). -/

namespace Sys2Proof.Machine

/-- The `Complete` step of CAPACITY (R60, R70). -/
def execCapacity (s : State) : Host.Outcome State Fault Refusal :=
  if dimsBad s then .next (reportError s .invalidDimensions)
  else .next (completeOk s (BitVec.ofNat 32 (wholeBytes s)))

end Sys2Proof.Machine
end

