-- ==== Sys2Proof/Machine/Stream.lean ====
section
/-! DEFINITION. The bit streams: the delimiter, the BitStream EMBED writes (`42_embed.md` R79), the channel update
(R80), and the LSB byte stream EXTRACT reads (`43_extract.md` R86). -/

namespace Sys2Proof.Machine

/-- `DELIM`, the nine bytes `###END###` (`00_scope.md` R4). -/
def delim : List Byte := [0x23, 0x23, 0x23, 0x45, 0x4E, 0x44, 0x23, 0x23, 0x23]

/-- `DELIM[i]`. -/
def delimByte (i : Nat) : Byte := delim.getD i 0

/-- Byte `k` of `S = PAY[0 .. L) ++ DELIM` (R79). -/
def streamByte (s : State) (k : Nat) : Byte :=
  if k < payloadLength s then s.byte .pay k else delimByte (k - payloadLength s)

/-- `bit(n) = S[n div 8][7 - (n mod 8)]`: most-significant bit first (R36, R79). -/
def streamBit (s : State) (n : Nat) : Bool := (streamByte s (n / 8)).getLsbD (7 - n % 8)

/-- One bit as a byte. -/
def bitByte (b : Bool) : Byte := if b then 1 else 0

/-- The channel update `(old & 0xFE) | bit` (R80). -/
def setLsb (old : Byte) (b : Bool) : Byte := (old &&& 0xFE) ||| bitByte b

/-- The bit slot `n` yields: bit 0 of its channel byte (R8, R86). -/
def slotBit (s : State) (n : Nat) : Bool := (s.byte .pix (slotAddr s.alpha n)).getLsbD 0

/-- The accumulator after one more bit: `((acc << 1) | lsb) & 0xFF` (R85, R87). -/
def shiftIn (acc : Byte) (b : Bool) : Byte := (acc <<< 1) ||| bitByte b

/-- The accumulator after the `n` slots from slot `first` on, started at zero. -/
def gather (s : State) (first : Nat) : Nat → Byte
  | 0 => 0
  | n + 1 => shiftIn (gather s first n) (slotBit s (first + n))

/-- `b_k`, byte `k` of the grid's LSB byte stream (R86). -/
def lsbByte (s : State) (k : Nat) : Byte := gather s (8 * k) 8

end Sys2Proof.Machine
end

