-- ==== Sys2Proof/Machine/Embed.lean ====
section
/-! DEFINITION. EMBED (`42_embed.md` R75 to R84). -/

namespace Sys2Proof.Machine

/-- The slot loop of EMBED: slots `0, 1, …, n-1` in ascending order, each a read-modify-write of one channel byte
(R38, R75, R80).  Only the addresses that `lands` picks are written: all of them in a command that completes, any of
them in one that a reset abandons (R121). -/
def writeSlots (s : State) (lands : Nat → Bool) : Nat → Memory
  | 0 => s.pix
  | n + 1 =>
    let m := writeSlots s lands n
    let a := slotAddr s.alpha n
    if lands a then m.put a (setLsb (m.read (Config.powerOnByte s.epoch .pix) a) (streamBit s n)) else m

/-- The `Complete` step of EMBED: the two prechecks in their order (R76, R77, R103), then the write (R80). -/
def execEmbed (s : State) : Host.Outcome State Fault Refusal :=
  if dimsBad s then .next (reportError s .invalidDimensions)
  else if slotCount s < bitsNeeded s then .next (reportError s .capacityExceeded)
  else
    match unpopulatedSpace s (bitsNeeded s) (payloadLength s) with
    | some sp => .refused (.commandUnpopulated sp)
    | none =>
      .next (completeOk { s with pix := writeSlots s (fun _ => true) (bitsNeeded s) }
        (BitVec.ofNat 32 (bitsNeeded s)))

/-- What a reset leaves of an EMBED it abandons (R121): each channel byte the command could write holds its old or its
new value, by the free value `Config.landed`. -/
def abandonEmbed (s : State) : Host.Outcome State Fault Refusal :=
  if dimsBad s || slotCount s < bitsNeeded s then .next (clearRegisters s)
  else
    match unpopulatedSpace s (bitsNeeded s) (payloadLength s) with
    | some sp => .refused (.commandUnpopulated sp)
    | none =>
      .next (clearRegisters
        { s with pix := writeSlots s (Config.landed s.draws) (bitsNeeded s), draws := s.draws + 1 })

end Sys2Proof.Machine
end

