-- ==== Sys2Proof/Machine/Utf8.lean ====
section
/-! DEFINITION. `UTF8_VALID`, by the table of well-formed sequences of `43_extract.md` R93 (D21). -/

namespace Sys2Proof.Machine

/-- A range of byte values, both ends included. -/
structure ByteRange where
  lo : Byte
  hi : Byte
  deriving DecidableEq, Repr

/-- Whether a byte lies in a range. -/
def ByteRange.has (r : ByteRange) (b : Byte) : Bool := r.lo ≤ b && b ≤ r.hi

/-- One row of the table: the range of the 1st byte, and of each byte that must follow. -/
structure Utf8Row where
  first : ByteRange
  rest : List ByteRange
  deriving DecidableEq, Repr

/-- `80..BF`. -/
def contByte : ByteRange := ⟨0x80, 0xBF⟩

/-- The table of rule R93, its rows in the rule's order. -/
def utf8Table : List Utf8Row :=
  [ ⟨⟨0x00, 0x7F⟩, []⟩,
    ⟨⟨0xC2, 0xDF⟩, [contByte]⟩,
    ⟨⟨0xE0, 0xE0⟩, [⟨0xA0, 0xBF⟩, contByte]⟩,
    ⟨⟨0xE1, 0xEC⟩, [contByte, contByte]⟩,
    ⟨⟨0xED, 0xED⟩, [⟨0x80, 0x9F⟩, contByte]⟩,
    ⟨⟨0xEE, 0xEF⟩, [contByte, contByte]⟩,
    ⟨⟨0xF0, 0xF0⟩, [⟨0x90, 0xBF⟩, contByte, contByte]⟩,
    ⟨⟨0xF1, 0xF3⟩, [contByte, contByte, contByte]⟩,
    ⟨⟨0xF4, 0xF4⟩, [⟨0x80, 0x8F⟩, contByte, contByte]⟩ ]

/-- The row whose 1st byte `b` is, if `b` may begin a sequence. -/
def utf8Lead (b : Byte) : Option Utf8Row := utf8Table.find? (fun r => r.first.has b)

/-- Whether a byte list can be cut, from the left, into well-formed sequences, the first of them already begun and
still owing a byte of each range of `owed`. -/
def utf8From : List ByteRange → List Byte → Bool
  | [], [] => true
  | _ :: _, [] => false
  | r :: owed, b :: l => r.has b && utf8From owed l
  | [], b :: l =>
    match utf8Lead b with
    | some row => utf8From row.rest l
    | none => false

/-- `UTF8_VALID` (R92, R93).  PRESUMED: the spec marks its table as general knowledge (assumption 11). -/
def utf8Valid (l : List Byte) : Bool := utf8From [] l

end Sys2Proof.Machine
end

