-- ==== Sys2Proof/Machine/Extract.lean ====
section
/-! DEFINITION. EXTRACT (`43_extract.md` R85 to R99). -/

namespace Sys2Proof.Machine

/-- How the scan of a grid ends. -/
inductive Scan where
  /-- A delimiter was completed: `n` bytes stand before it (R90), and PAY holds the bytes completed so far (R91). -/
  | found (n : Nat) (pay : Memory)
  /-- Every slot was read without a match (R94). -/
  | exhausted (pay : Memory)
  deriving DecidableEq, Repr

/-- The slot loop of EXTRACT, as rule R85 writes it: `fuel` slots are still to be read, the next is slot `n`, `acc` is
the accumulator, and `pay` is the running byte buffer, PAY itself (R91). -/
def scanFrom (s : State) : (fuel n : Nat) → (acc : Byte) → (pay : Memory) → Scan
  | 0, _, _, pay => .exhausted pay
  | fuel + 1, n, acc, pay =>
    if n % 8 = 7 then
      if 8 ≤ n / 8 ∧
          (pay.put (n / 8) (shiftIn acc (slotBit s n))).readList (Config.powerOnByte s.epoch .pay) (n / 8 - 8) 9
            = delim then
        .found (n / 8 - 8) (pay.put (n / 8) (shiftIn acc (slotBit s n)))
      else
        scanFrom s fuel (n + 1) (shiftIn acc (slotBit s n)) (pay.put (n / 8) (shiftIn acc (slotBit s n)))
    else scanFrom s fuel (n + 1) (shiftIn acc (slotBit s n)) pay

/-- The whole scan: all `T` slots, from slot 0, the accumulator zero (R85). -/
def scanGrid (s : State) : Scan := scanFrom s (slotCount s) 0 0 s.pay

/-- How many slots a scan reads at most (R39, R90): up to the delimiter's last bit, or every slot of the grid. -/
def Scan.slotsRead (s : State) : Scan → Nat
  | .found n _ => 8 * (n + delimLength)
  | .exhausted _ => slotCount s

/-- `B`, how many bytes a scan completes (R91). -/
def Scan.bytesWritten (s : State) : Scan → Nat
  | .found n _ => n + delimLength
  | .exhausted _ => wholeBytes s

/-- The address space in which the scan would leave the populated memory, if there is one (R40, U3).  A scan that finds no
delimiter counts as reading the last `T mod 8` slots, which rule R39 leaves open (DESIGN CHOICE, assumption 7). -/
def scanUnpopulated (s : State) : Option Space :=
  unpopulatedSpace s ((scanGrid s).slotsRead s) ((scanGrid s).bytesWritten s)

/-- How EXTRACT ends, by how its scan ended (R92, R94). -/
def endScan (s : State) : Scan → State
  | .found n pay =>
    if utf8Valid (pay.readList (Config.powerOnByte s.epoch .pay) 0 n) then
      completeOk { s with pay := pay } (BitVec.ofNat 32 n)
    else reportError { s with pay := pay } .invalidEncoding
  | .exhausted pay => reportError { s with pay := pay } .noHiddenMessage

/-- The `Complete` step of EXTRACT: the dimensions first (R88, R103), then the scan decides. -/
def execExtract (s : State) : Host.Outcome State Fault Refusal :=
  if dimsBad s then .next (reportError s .invalidDimensions)
  else
    match scanUnpopulated s with
    | some sp => .refused (.commandUnpopulated sp)
    | none => .next (endScan s (scanGrid s))

/-- Store the bytes `b_0, …, b_{n-1}` of the LSB byte stream at the PAY addresses that `lands` picks (R121). -/
def writeBytes (s : State) (lands : Nat → Bool) : Nat → Memory
  | 0 => s.pay
  | n + 1 =>
    if lands n then (writeBytes s lands n).put n (lsbByte s n) else writeBytes s lands n

/-- What a reset leaves of an EXTRACT it abandons (R121): each PAY byte below `T div 8` holds its old value or `b_k`,
by the free value `Config.landed`.  A scan that would stop at a delimiter inside the populated memory is not refused, though
bytes up to `T div 8` may land, those of unpopulated slots and above `PAY_POP` among them (DESIGN CHOICE, assumption 21). -/
def abandonExtract (s : State) : Host.Outcome State Fault Refusal :=
  if dimsBad s then .next (clearRegisters s)
  else
    match scanUnpopulated s with
    | some sp => .refused (.commandUnpopulated sp)
    | none =>
      .next (clearRegisters
        { s with pay := writeBytes s (Config.landed s.draws) (wholeBytes s), draws := s.draws + 1 })

end Sys2Proof.Machine
end

