-- ==== Sys2Proof/Machine/Flags.lean ====
section
/-! DEFINITION. The flags: the fields of `STATUS` and the error codes (`10_state.md` R15, R27; `60_exceptions.md`
R100).  There are no arithmetic flags (R27). -/

namespace Sys2Proof.Machine

/-- The code of an error kind in `STATUS.ERR` (R100). -/
def errCode : ErrKind → BitVec 4
  | .none => 0
  | .invalidDimensions => 1
  | .capacityExceeded => 2
  | .noHiddenMessage => 3
  | .invalidEncoding => 4
  | .illegalCommand => 5

/-- The word `STATUS` reads as: BUSY in bit 0, DONE in bit 1, ERR in bits 7:4, every other bit zero (R15, R56). -/
def statusWord (s : State) : Word :=
  0#24 ++ errCode s.err ++ 0#2 ++ BitVec.ofBool s.done ++ BitVec.ofBool s.busy

end Sys2Proof.Machine
end

