-- ==== Sys2Proof/Machine/Registers.lean ====
section
/-! DEFINITION. The register window: what reading and writing register `n` does (`10_state.md` R13 to R21,
`40_command_issue.md` R56 to R59). -/

namespace Sys2Proof.Machine

/-- The byte offset at which a platform that maps the registers places register `n` (R13). -/
def registerOffset (n : Nat) : Nat := 4 * n

/-- `CFG` as a word: ALPHA in bit 0, every other bit zero (R16, R56). -/
def cfgWord (s : State) : Word := 0#31 ++ BitVec.ofBool s.alpha

/-- A `DIM` field as a word: the field below, zeros above (R17, R18, R56). -/
def dimWord (d : Dim) : Word := 0#16 ++ d

/-- The value `RegRead(n)` returns, in either phase (R56).  Register 7 and every number above it read as zero (R21;
assumption 17). -/
def regValue (s : State) : Nat → Word
  | 0 => 0
  | 1 => statusWord s
  | 2 => cfgWord s
  | 3 => dimWord s.width
  | 4 => dimWord s.height
  | 5 => s.payLen
  | 6 => s.result
  | _ => 0

/-- Acceptance: what a `CMD` write does while the block is idle (R59).  A legal word starts its command; an illegal
one completes at once with IllegalCommand (R105). -/
def issue (s : State) (v : Word) : State :=
  match decode v with
  | .ok _ =>
    { s with result := 0, err := .none, op := v.extractLsb' 0 2, done := false, busy := true }
  | .error _ => reportError s .illegalCommand

/-- `RegWrite(n, v)` while the block is idle (R57).  Writes to `STATUS`, to `RESULT` and to the reserved numbers do
nothing; unused bits are ignored (R16 to R21). -/
def regWriteIdle (s : State) (n : Nat) (v : Word) : State :=
  match n with
  | 0 => issue s v
  | 2 => { s with alpha := v.getLsbD 0 }
  | 3 => { s with width := v.extractLsb' 0 16 }
  | 4 => { s with height := v.extractLsb' 0 16 }
  | 5 => { s with payLen := v }
  | _ => s

/-- `RegWrite(n, v)`: dropped while the block is busy, whatever `n` (R58). -/
def regWrite (s : State) (n : Nat) (v : Word) : State :=
  if s.busy then s else regWriteIdle s n v

/-- The state in which a table row's word is what runs next: a legal word has just been accepted and the engine's
`Complete` is due; any other word is the script's next action, a `CMD` write to the idle block (assumption 5). -/
def placeCommand (s : State) (nbits w : Nat) : State :=
  match decodeTableWord nbits w with
  | some i => { issue s (encode i) with turns := [] }
  | none =>
    { s with
      busy := false
      script := .regWrite 0 (if tableBits nbits w < 2 ^ 32 then BitVec.ofNat 32 (tableBits nbits w) else 0)
        :: s.script }

end Sys2Proof.Machine
end

