-- ==== Sys2Proof/Machine/HostAccess.lean ====
section
/-! DEFINITION. The host's steps (`40_command_issue.md` R55): register access, memory access (R63, R64), `WAIT` (R52),
reset in either phase (`70_reset_and_hazards.md` R120, R121), and loss of power (`60_exceptions.md` R115). -/

namespace Sys2Proof.Machine

/-- `RegRead(n)`: the host receives the value, nothing else changes (R56). -/
def hostRegRead (s : State) (n : Nat) : State := s.see (.reg n (regValue s n))

/-- `HostMemRead(space, a)` (R63); no meaning while busy (R64), nor where the platform has no memory (R40). -/
def hostMemRead (s : State) (sp : Space) (a : Word) : Host.Outcome State Fault Refusal :=
  if s.busy then .refused (.hostMemoryWhileBusy sp)
  else if a.toNat < s.pop sp then .next (s.see (.mem sp a (s.byte sp a.toNat)))
  else .refused (.hostMemoryUnpopulated sp)

/-- `HostMemWrite(space, a, v)` (R63); no meaning while busy (R64), nor where the platform has no memory (R40). -/
def hostMemWrite (s : State) (sp : Space) (a : Word) (v : Byte) : Host.Outcome State Fault Refusal :=
  if s.busy then .refused (.hostMemoryWhileBusy sp)
  else if a.toNat < s.pop sp then .next (s.putByte sp a.toNat v)
  else .refused (.hostMemoryUnpopulated sp)

/-- One turn of `WAIT`: read `STATUS`; unless the value read has `DONE = 1`, the `WAIT` is still the next action (R52).
DESIGN CHOICE, assumption 15. -/
def hostWait (s : State) : State :=
  if (statusWord s).getLsbD 1 then hostRegRead s 1
  else { hostRegRead s 1 with script := .wait :: s.script }

/-- Reset: of an idle block (R120), and of a busy one, whose command is abandoned (R121).  `OP` is cleared with the
registers (DESIGN CHOICE, assumption 3). -/
def hostReset (s : State) : Host.Outcome State Fault Refusal :=
  if s.busy then
    match opInstr s.op with
    | some .capacity => .next (clearRegisters s)
    | some .embed => abandonEmbed s
    | some .extract => abandonExtract s
    | none => .fault .busyWithoutOperation
  else .next (clearRegisters s)

/-- Power removed and returned: the registers at their reset values, every byte of both memories unspecified, with no
relation to what it was (R115, R120).  DEDUCED, assumption 6. -/
def hostPowerCycle (s : State) : State :=
  clearRegisters { s with pix := [], pay := [], epoch := s.epoch + 1 }

/-- One action of the host's script, already taken off the script. -/
def hostAct (s : State) : HostStep → Host.Outcome State Fault Refusal
  | .regRead n => .next (hostRegRead s n)
  | .regWrite n v => .next (regWrite s n v)
  | .memRead sp a => hostMemRead s sp a
  | .memWrite sp a v => hostMemWrite s sp a v
  | .wait => .next (hostWait s)
  | .reset => hostReset s
  | .powerCycle => .next (hostPowerCycle s)

end Sys2Proof.Machine
end

