-- ==== Sys2Proof/Machine/Turn.lean ====
section
/-! DEFINITION. Who moves next (`40_command_issue.md` R55, R61, R68), and the move. -/

namespace Sys2Proof.Machine

/-- The move that is due. -/
inductive Turn where
  /-- No agent can move: the block is idle and the host's script is at its end (R68). -/
  | rest
  /-- The host takes action `a`; `s` is the state with the action taken off the script. -/
  | host (a : HostStep) (s : State)
  /-- The engine completes its command in state `s`. -/
  | engine (s : State)
  deriving DecidableEq, Repr

/-- Whose turn it is (R55): the engine can move exactly while the block is busy, the host while its script lasts.
Where both can, `turns` says who does, and when it has run out the engine does: so every interleaving is the run of
some `turns`, and `Complete` is always taken after finitely many steps (R61).  DESIGN CHOICE, assumption 4. -/
def nextTurn (s : State) : Turn :=
  match s.busy, s.script, s.turns with
  | false, [], _ => .rest
  | false, a :: as, _ => .host a { s with script := as }
  | true, [], _ => .engine s
  | true, _ :: _, [] => .engine s
  | true, a :: as, .host :: ts => .host a { s with script := as, turns := ts }
  | true, _ :: _, .engine :: ts => .engine { s with turns := ts }

/-- The engine's step `Complete` (R60): `exec` of the command `OP` stands for (R62; assumption 10). -/
def engineAct (s : State) : Host.Outcome State Fault Refusal :=
  match opInstr s.op with
  | some i => exec i s
  | none => .fault .busyWithoutOperation

/-- The move that is due, taken.  At rest nothing moves and nothing changes: the block never halts (R68). -/
def takeTurn (s : State) : Turn → Host.Outcome State Fault Refusal
  | .rest => .next s
  | .host a t => hostAct t a
  | .engine t => engineAct t

end Sys2Proof.Machine
end

