-- ==== Sys2Proof/Machine/Script.lean ====
section
/-! DEFINITION. What hosts do: the line notation of `30_encoding.md` R52 and the pseudo-instructions of R53.
A script is fixed before it runs.  Where the host acts on a value it has read, rule R53's expansion is a procedure of
several scripts, each run from the end state of the one before it (`40_command_issue.md` R68). -/

namespace Sys2Proof.Machine

/-! ### Lines and scripts -/

/-- The line `CAPACITY`, `EMBED` or `EXTRACT`: the `CMD` write of the command's word (R52). -/
def lineCommand (i : Instr) : HostStep := .regWrite 0 (encode i)

/-- `PIXW addr, bytes` and `PAYW addr, bytes` (R52).  A line that passes address `2^32 - 1` goes on at 0: the spec has no
address beyond it (R30) and says nothing of such a line.  DESIGN CHOICE, assumption 18. -/
def linesWrite (sp : Space) : Nat → List Byte → List HostStep
  | _, [] => []
  | a, b :: l => .memWrite sp (BitVec.ofNat 32 a) b :: linesWrite sp (a + 1) l

/-- `PIXR addr, count` and `PAYR addr, count` (R52).  A line that passes address `2^32 - 1` goes on at 0: the spec says
nothing of such a line.  DESIGN CHOICE, assumption 18. -/
def linesRead (sp : Space) : Nat → Nat → List HostStep
  | _, 0 => []
  | a, n + 1 => .memRead sp (BitVec.ofNat 32 a) :: linesRead sp (a + 1) n

/-- `WR WIDTH, w ; WR HEIGHT, h`. -/
def linesDims (w h : Word) : List HostStep := [.regWrite 3 w, .regWrite 4 h]

/-- `WR CFG, alpha ; WR WIDTH, w ; WR HEIGHT, h ; PIXW 0, grid`. -/
def linesGrid (alpha w h : Word) (grid : List Byte) : List HostStep :=
  .regWrite 2 alpha :: linesDims w h ++ linesWrite .pix 0 grid

/-- `WR WIDTH, w ; WR HEIGHT, h ; CAPACITY ; WAIT ; RD STATUS ; RD RESULT` (R53). -/
def scriptCapacityBytes (w h : Word) : List HostStep :=
  linesDims w h ++ [lineCommand .capacity, .wait, .regRead 1, .regRead 6]

/-- `WR CFG, alpha ; … ; PAYW 0, payload ; WR PAY_LEN, len(payload) ; EMBED ; WAIT ; RD STATUS` (R53).  Of a payload of
`2^32` bytes or more `PAY_LEN` gets the length modulo `2^32`: the spec says nothing of such a payload.  DESIGN CHOICE,
assumption 19. -/
def scriptEmbed (alpha w h : Word) (grid payload : List Byte) : List HostStep :=
  linesGrid alpha w h grid ++ linesWrite .pay 0 payload ++
    [.regWrite 5 (BitVec.ofNat 32 payload.length), lineCommand .embed, .wait, .regRead 1]

/-- `WR CFG, alpha ; … ; EXTRACT ; WAIT ; RD STATUS`: `extract(grid)` up to the host's look at `ERR` (R53). -/
def scriptExtract (alpha w h : Word) (grid : List Byte) : List HostStep :=
  linesGrid alpha w h grid ++ [lineCommand .extract, .wait, .regRead 1]

/-! ### What the host knows -/

/-- The value the host last read of register `n`, if it has read it. -/
def lastRead (n : Nat) : List Reading → Option Word
  | [] => none
  | .reg m v :: seen => if m = n then some v else lastRead n seen
  | .mem _ _ _ :: seen => lastRead n seen

/-- `ERR`, as the host last read it: bits 7:4 of `STATUS` (R15). -/
def lastErr (seen : List Reading) : Option (BitVec 4) := (lastRead 1 seen).map (·.extractLsb' 4 4)

/-- The host has read `ERR = 0`. -/
def sawSuccess (seen : List Reading) : Bool := lastErr seen = some 0

/-- `RESULT`, as the host last read it. -/
def lastResult (seen : List Reading) : Nat := ((lastRead 6 seen).getD 0).toNat

/-- What `capacity_bytes` returns: `RESULT` if `ERR = 0`, else the code of the error kind (R53). -/
def capacityAnswer (seen : List Reading) : Except (BitVec 4) Nat :=
  if sawSuccess seen then .ok (lastResult seen) else .error ((lastErr seen).getD 0)

/-- What `analyze` reports beside it, computed by the host: `RESULT - 9`, negative for a small grid (R53). -/
def usableMessage (seen : List Reading) : Int := lastResult seen - delimLength

/-! ### Procedures -/

/-- A host procedure: its scripts in order, each chosen by what the host has read when its turn comes, latest first. -/
abbrev Procedure := List (List Reading → List HostStep)

/-- `capacity_bytes(w, h)`, and the block's part of `analyze` (R53). -/
def procCapacityBytes (w h : Word) : Procedure := [fun _ => scriptCapacityBytes w h]

/-- `embed(grid, payload)` (R53). -/
def procEmbed (alpha w h : Word) (grid payload : List Byte) : Procedure :=
  [fun _ => scriptEmbed alpha w h grid payload]

/-- The end of `extract(grid)`: on `ERR = 0`, `RD RESULT -> n ; PAYR 0, n` (R53). -/
def procReadPayload : Procedure :=
  [fun seen => if sawSuccess seen then [.regRead 6] else [],
    fun seen => if sawSuccess seen then linesRead .pay 0 (lastResult seen) else []]

/-- `extract(grid)`, and the block's part of `extract(stego_image_path)` (R53). -/
def procExtract (alpha w h : Word) (grid : List Byte) : Procedure :=
  (fun _ => scriptExtract alpha w h grid) :: procReadPayload

/-- The host's test `len(payload) + 9 <= RESULT` (R53). -/
def payloadFits (payload : List Byte) (seen : List Reading) : Bool :=
  payload.length + delimLength ≤ lastResult seen

/-- `hide` (R53): with `tested`, `capacity_bytes` and the host's test first, and nothing more where it fails; then
`embed(grid, payload)`. -/
def procHide (tested : Bool) (alpha w h : Word) (grid payload : List Byte) : Procedure :=
  if tested then
    procCapacityBytes w h ++
      [fun seen => if payloadFits payload seen then scriptEmbed alpha w h grid payload else []]
  else procEmbed alpha w h grid payload

end Sys2Proof.Machine
end

