-- ==== Sys2Proof/Safety.lean ====
section
/-! DEFINITION. The terms claims are stated in: the invariant of the block, the premises a claim about a run takes
(`40_command_issue.md` R69), and what a command's outcome is a function of (`10_state.md` R26). -/

namespace Sys2Proof.Machine

/-- What every step keeps.  Both memories are canonical; `BUSY` and `DONE` are never both 1 (R15); a busy block has
an operation (R62); `ERR` and `RESULT` are 0 until a command has completed (R15, R59); an error leaves `RESULT = 0`
(R20); and `RESULT` never passes the largest value rule R5 gives. -/
structure State.Inv (s : State) : Prop where
  pixWf : s.pix.wf
  payWf : s.pay.wf
  busyNotDone : s.busy = true → s.done = false
  busyHasOp : s.busy = true → s.op ≠ 0
  clearUntilDone : s.done = false → s.err = .none ∧ s.result = 0
  errorClearsResult : s.err ≠ .none → s.result = 0
  resultBound : s.result.toNat ≤ 0xBFFD0003

/-- A legal grid: `1 <= w, h <= 32767` (R5); the fields can express no larger dimension. -/
def legalGrid (s : State) : Prop := 0 < gridWidth s ∧ 0 < gridHeight s

/-- `w * h * BPP`, how many bytes of PIX the grid occupies (R32). -/
def gridBytes (s : State) : Nat := (gridWidth s * gridHeight s).toNat * bytesPerPixel s.alpha

/-- Premise `populated` of a command (R69, R123). -/
def populatedFor (i : Instr) (s : State) : Prop :=
  match i with
  | .capacity => True
  | .embed => gridBytes s ≤ s.pixPop ∧ payloadLength s ≤ s.payPop
  | .extract => gridBytes s ≤ s.pixPop ∧ wholeBytes s ≤ s.payPop

/-- How many slots of the grid a command reaches, from slot 0 on (R39).  A command that fails its tests reaches none.  What
a scan reaches is the model's reading (assumption 7). -/
def slotsReached (i : Instr) (s : State) : Nat :=
  match i with
  | .capacity => 0
  | .embed => if dimsBad s || slotCount s < bitsNeeded s then 0 else bitsNeeded s
  | .extract => if dimsBad s then 0 else (scanGrid s).slotsRead s

/-- How many bytes of PAY a command reaches, from address 0 on (R39), likewise. -/
def bytesReached (i : Instr) (s : State) : Nat :=
  match i with
  | .capacity => 0
  | .embed => if dimsBad s || slotCount s < bitsNeeded s then 0 else payloadLength s
  | .extract => if dimsBad s then 0 else (scanGrid s).bytesWritten s

/-- What a command reads is listed in the memories: whoever wrote it, nothing the command reads dates from power-on
(R120, U4). -/
def listedFor (i : Instr) (s : State) : Prop :=
  match i with
  | .capacity => True
  | .embed =>
    (∀ a < gridBytes s, (s.pix.byteAt? a).isSome) ∧ ∀ k < payloadLength s, (s.pay.byteAt? k).isSome
  | .extract => ∀ a < gridBytes s, (s.pix.byteAt? a).isSome

/-! The premise `memory_written` of rule R69 speaks of what the host has written since power-on.  The memories do not tell
who wrote a byte, so it is a premise of a run: a list is kept beside the run, and only the host's writes enter it. -/

/-- The bytes the host has written since power-on. -/
abbrev Written := List (Space × Nat)

/-- The list after the host's action `a`: a memory write enters its byte; at power-on nothing has been written. -/
def writtenBy (w : Written) : HostStep → Written
  | .memWrite sp a _ => (sp, a.toNat) :: w
  | .powerCycle => []
  | .regRead _ => w
  | .regWrite _ _ => w
  | .memRead _ _ => w
  | .wait => w
  | .reset => w

/-- The list after the step that is due in `s`.  What the engine writes does not enter it. -/
def writtenAfter (w : Written) (s : State) : Written :=
  match nextTurn s with
  | .host a _ => writtenBy w a
  | _ => w

/-- Premise `memory_written` of a command (R69): the host has written every PIX byte of the grid and, before EMBED, every
byte of the payload. -/
def memoryWrittenFor (w : Written) (i : Instr) (s : State) : Bool :=
  match i with
  | .capacity => true
  | .embed => decide (∀ a < gridBytes s, (Space.pix, a) ∈ w) && decide (∀ k < payloadLength s, (Space.pay, k) ∈ w)
  | .extract => decide (∀ a < gridBytes s, (Space.pix, a) ∈ w)

/-- The command in execution, if there is one, meets the premise `memory_written`. -/
def commandWritten (w : Written) (s : State) : Bool :=
  !s.busy || (match opInstr s.op with
    | some i => memoryWrittenFor w i s
    | none => true)

/-- The first `k` steps of the run from `s` keep the premise `memory_written` (R69): every command in execution meets it
(while it runs the host writes no memory, R64).  `w` is what the host has written before. -/
def memoryWrittenRun : (k : Nat) → Written → State → Bool
  | 0, _, _ => true
  | k + 1, w, s =>
    commandWritten w s &&
      match step s with
      | .next t => memoryWrittenRun k (writtenAfter w s) t
      | _ => true

/-- The memories list every byte of `w`. -/
def State.lists (s : State) (w : Written) : Prop := ∀ x ∈ w, ((s.mem x.1).byteAt? x.2).isSome

/-! The premises `no_mem_while_busy`, `no_regwrite_while_busy` and `no_reset_while_busy` of rule R69 speak of the window
between a legal `CMD` write and the next read of `STATUS` that returns `DONE = 1`.  Where the window ends depends on what
the read returns, so the premises are premises of a run, under its schedule.  `owed` says whether the window is open. -/

/-- Whether the window is open after the host's action `a`, taken in state `s`.  A legal `CMD` write that is accepted
opens it; a `STATUS` read that returns `DONE = 1`, of a `WAIT` or not, closes it; so do a reset and a loss of power, after
which no command is left to wait for (DESIGN CHOICE, assumption 20). -/
def owedBy (owed : Bool) (s : State) : HostStep → Bool
  | .regWrite n v => owed || (n == 0 && legalWord v && !s.busy)
  | .regRead n => owed && !(n == 1 && s.done)
  | .wait => owed && !s.done
  | .memRead _ _ => owed
  | .memWrite _ _ _ => owed
  | .reset => false
  | .powerCycle => false

/-- Whether the host's action `a`, taken in state `s`, keeps the three premises: no memory access and no register write
in the window, no reset while `BUSY = 1`.  Loss of power counts as a reset (DESIGN CHOICE, assumption 20). -/
def allowed (owed : Bool) (s : State) : HostStep → Bool
  | .regWrite _ _ => !owed
  | .memRead _ _ => !owed
  | .memWrite _ _ _ => !owed
  | .reset => !s.busy
  | .powerCycle => !s.busy
  | .regRead _ => true
  | .wait => true

/-- Whether the window is open after the step that is due in `s`. -/
def owedAfter (owed : Bool) (s : State) : Bool :=
  match nextTurn s with
  | .host a t => owedBy owed t a
  | _ => owed

/-- The step that is due in `s` keeps the premises. -/
def stepAllowed (owed : Bool) (s : State) : Bool :=
  match nextTurn s with
  | .host a t => allowed owed t a
  | _ => true

/-- The first `k` steps of the run from `s` keep the premises `no_mem_while_busy`, `no_regwrite_while_busy` and
`no_reset_while_busy` (R69). -/
def orderlyFor : (k : Nat) → (owed : Bool) → State → Bool
  | 0, _, _ => true
  | k + 1, owed, s =>
    stepAllowed owed s &&
      match step s with
      | .next t => orderlyFor k (owedAfter owed s) t
      | _ => true

/-- A script that keeps the premises whatever the schedule, because a `WAIT` stands between every legal `CMD` write and
the next action that is not a register read; `owed` says whether such a `WAIT` is owed at its start. -/
def waitsFirst : (owed : Bool) → List HostStep → Bool
  | _, [] => true
  | owed, .regRead _ :: l => waitsFirst owed l
  | owed, .regWrite n v :: l => !owed && waitsFirst (n == 0 && legalWord v) l
  | owed, .memRead _ _ :: l => !owed && waitsFirst false l
  | owed, .memWrite _ _ _ :: l => !owed && waitsFirst false l
  | _, .wait :: l => waitsFirst false l
  | owed, .reset :: l => !owed && waitsFirst false l
  | owed, .powerCycle :: l => !owed && waitsFirst false l

/-- The end of a run: the script is at its end and the block is idle (R68). -/
def State.atRest (s : State) : Prop := s.busy = false ∧ s.script = []

/-- Two states in which a command has the same inputs (R26): the operand registers, the contents of both memories,
and the platform's parameters. -/
structure State.sameInputs (s t : State) : Prop where
  alpha : s.alpha = t.alpha
  width : s.width = t.width
  height : s.height = t.height
  payLen : s.payLen = t.payLen
  bytes : ∀ sp a, s.byte sp a = t.byte sp a
  pop : ∀ sp, s.pop sp = t.pop sp

/-- Two states in which a command has left the same outcome (R26): `ERR`, `RESULT`, PIX and PAY. -/
structure State.sameOutcome (s t : State) : Prop where
  err : s.err = t.err
  result : s.result = t.result
  bytes : ∀ sp a, s.byte sp a = t.byte sp a

/-- Two states in which the block itself is the same: every piece of rule R10's state but `OP`, which means nothing
while the block is idle (R24), and which power-on the memories date from. -/
structure State.sameBlock (s t : State) : Prop where
  alpha : s.alpha = t.alpha
  width : s.width = t.width
  height : s.height = t.height
  payLen : s.payLen = t.payLen
  busy : s.busy = t.busy
  done : s.done = t.done
  err : s.err = t.err
  result : s.result = t.result
  pix : s.pix = t.pix
  pay : s.pay = t.pay
  epoch : s.epoch = t.epoch

/-- `k` steps of the machine, stopping at the first fault or refusal. -/
def runFor (k : Nat) (s : State) : Host.Outcome State Fault Refusal := Sys2Proof.core.run k s

/-- `u` is an end state of the host procedure `p` from `s`: each of its scripts is run, under some schedule, from the end
state of the one before it (R53, R68). -/
def performs : Procedure → State → State → Prop
  | [], s, u => u = s
  | f :: p, s, u =>
    ∃ k ts t, runFor k { s with script := f s.seen, turns := ts } = .next t ∧ t.atRest ∧ performs p t u

/-- The payload of a state: `PAY[0 .. L)` (R19, R35). -/
def payloadBytes (s : State) : List Byte := (List.range (payloadLength s)).map (s.byte .pay)

/-- A byte's value lies in a range, both ends included. -/
def byteWithin (lo hi : Nat) (b : Byte) : Prop := lo ≤ b.toNat ∧ b.toNat ≤ hi

/-- One well-formed UTF-8 sequence, row by row of the table of rule R93: by its number of bytes, then by the range of
its first byte. -/
def wellFormedSequence : List Byte → Prop
  | [a] => byteWithin 0x00 0x7F a
  | [a, b] => byteWithin 0xC2 0xDF a ∧ byteWithin 0x80 0xBF b
  | [a, b, c] =>
    (byteWithin 0xE0 0xE0 a ∧ byteWithin 0xA0 0xBF b ∨ byteWithin 0xE1 0xEC a ∧ byteWithin 0x80 0xBF b ∨
      byteWithin 0xED 0xED a ∧ byteWithin 0x80 0x9F b ∨ byteWithin 0xEE 0xEF a ∧ byteWithin 0x80 0xBF b) ∧
    byteWithin 0x80 0xBF c
  | [a, b, c, d] =>
    (byteWithin 0xF0 0xF0 a ∧ byteWithin 0x90 0xBF b ∨ byteWithin 0xF1 0xF3 a ∧ byteWithin 0x80 0xBF b ∨
      byteWithin 0xF4 0xF4 a ∧ byteWithin 0x80 0x8F b) ∧ byteWithin 0x80 0xBF c ∧ byteWithin 0x80 0xBF d
  | _ => False

/-- `DELIM` occurs in `l` at byte offset `i`. -/
def delimAt (l : List Byte) (i : Nat) : Prop := (l.drop i).take delimLength = delim

/-- The test of rule R89 after byte `k`: the nine bytes of the LSB byte stream that end at `k` are the delimiter. -/
def matchAt (s : State) (k : Nat) : Prop := 8 ≤ k ∧ ∀ i < delimLength, lsbByte s (k - 8 + i) = delimByte i

/-- `k*` is the byte after which the scan stops: the least `k < T div 8` that passes the test (R89). -/
def stopsAt (s : State) (k : Nat) : Prop := k < wholeBytes s ∧ matchAt s k ∧ ∀ j < k, ¬ matchAt s j

end Sys2Proof.Machine
end

