-- ==== Sys2Proof/Certificates/Slice0/Obligations.lean ====
section
/-! DEFINITION. The statements for the provers.  Each docstring names the rule of the spec it formalises, or the rules
and log entries it rests on. -/

open Sys2Proof Sys2Proof.Machine

/-! ### Reset and power -/

/-- R28 and R120: the registers after power-on, and a reset taken while idle, which puts every register to the same values
and changes neither memory.  (What the memories hold after power-on is `PowerCycleLosesBothMemories`.) -/
def Obligations.ResetPutsRegistersToZeroAndKeepsMemories : Prop :=
  (State.reset.busy = false ∧ State.reset.done = false ∧ State.reset.err = .none ∧ State.reset.result = 0 ∧
    State.reset.alpha = false ∧ State.reset.width = 0 ∧ State.reset.height = 0 ∧ State.reset.payLen = 0 ∧
    ∀ n, regValue State.reset n = 0) ∧
  ∀ s : State, s.busy = false → ∃ t, hostAct s .reset = .next t ∧
    t.busy = false ∧ t.done = false ∧ t.err = .none ∧ t.result = 0 ∧
    t.alpha = false ∧ t.width = 0 ∧ t.height = 0 ∧ t.payLen = 0 ∧
    (∀ n, regValue t n = 0) ∧ t.pix = s.pix ∧ t.pay = s.pay ∧ ∀ sp a, t.byte sp a = s.byte sp a

/-- R121, U2 and D19: a reset of a busy block abandons its command.  The registers take their reset values.  An abandoned
EMBED leaves each channel byte it could write old or new and every other byte as it was; an abandoned EXTRACT leaves each
PAY byte below `T div 8` old or `b_k`; an abandoned CAPACITY changes no memory.  Which bytes are new is a free value, and
that a command which would fail its checks could write nothing, which U2 says of EMBED, is for EXTRACT the model's choice
(log entry 2).  The premise that the command's memory is there is R123's. -/
def Obligations.ResetOfABusyBlockAbandonsItsCommand : Prop :=
  ∀ (s : State) (i : Instr), s.busy = true → opInstr s.op = some i → populatedFor i s →
    ∃ t, hostAct s .reset = .next t ∧
      t.busy = false ∧ t.done = false ∧ t.err = .none ∧ t.result = 0 ∧
      t.alpha = false ∧ t.width = 0 ∧ t.height = 0 ∧ t.payLen = 0 ∧
      (i = .capacity → ∀ sp a, t.byte sp a = s.byte sp a) ∧
      (i = .embed →
        (∀ a, t.byte .pay a = s.byte .pay a) ∧
        (∀ a, t.byte .pix a = s.byte .pix a ∨
          legalGrid s ∧ bitsNeeded s ≤ slotCount s ∧
            ∃ n < bitsNeeded s, a = slotAddr s.alpha n ∧
              t.byte .pix a = (s.byte .pix a &&& 0xFE) ||| (if streamBit s n then 1 else 0))) ∧
      (i = .extract →
        (∀ a, t.byte .pix a = s.byte .pix a) ∧
        (∀ a, t.byte .pay a = s.byte .pay a ∨
          legalGrid s ∧ a < wholeBytes s ∧ t.byte .pay a = lsbByte s a))

/-- R115 with R120: after power-on every byte of both memories is a free value; when power returns the registers hold
their reset values and every byte is a new free value, whatever the block was doing (log entries 1 and 6). -/
def Obligations.PowerCycleLosesBothMemories : Prop :=
  (∀ sp a, State.reset.byte sp a = Config.powerOnByte 0 sp a) ∧
  ∀ s : State, ∃ t, hostAct s .powerCycle = .next t ∧
    t.busy = false ∧ t.done = false ∧ t.err = .none ∧ t.result = 0 ∧
    t.alpha = false ∧ t.width = 0 ∧ t.height = 0 ∧ t.payLen = 0 ∧
    ∀ sp a, t.byte sp a = Config.powerOnByte (s.epoch + 1) sp a

/-! ### Encoding -/

/-- R50: the decoder is a total function on 32-bit words. -/
def Obligations.DecoderMapsThreeWordsAndRejectsTheRest : Prop :=
  decode 0x00000001#32 = .ok .capacity ∧ decode 0x00000002#32 = .ok .embed ∧
  decode 0x00000003#32 = .ok .extract ∧
  ∀ v : Word, v ≠ 0x00000001#32 → v ≠ 0x00000002#32 → v ≠ 0x00000003#32 → decode v = .error (.illegalCommand v)

/-- R46: a word is legal by its two fields exactly when it is one of the three words, and exactly then it decodes. -/
def Obligations.LegalityByFieldsIsDecodability : Prop :=
  ∀ v : Word,
    (legalWord v = true ↔
      v.extractLsb' 8 24 = 0 ∧
        (v.extractLsb' 0 8 = 1 ∨ v.extractLsb' 0 8 = 2 ∨ v.extractLsb' 0 8 = 3)) ∧
    (legalWord v = true ↔ v = 0x00000001#32 ∨ v = 0x00000002#32 ∨ v = 0x00000003#32) ∧
    (legalWord v = true ↔ ∃ i, decode v = .ok i)

/-- R47 with R50: the encoder and the decoder agree in both directions, for every well-formed command and every word. -/
def Obligations.EncodeAndDecodeAgree : Prop :=
  (∀ i : Instr, i.wellFormed = true → decode (encode i) = .ok i) ∧
  ∀ (i : Instr) (v : Word), decode v = .ok i → v = encode i ∧ opInstr (v.extractLsb' 0 2) = some i

/-- Vector V1, and the opcode table's rows as the host numbers their bits (R54). -/
def Obligations.WrittenOutWordsDecode : Prop :=
  decodeTableWord 32 0b00000000000000000000000000000001 = some .capacity ∧
  decodeTableWord 32 0b00000000000000000000000000000010 = some .embed ∧
  decodeTableWord 32 0b00000000000000000000000000000011 = some .extract ∧
  decodeTableWord 32 0 = none ∧ decodeTableWord 32 4 = none ∧ decodeTableWord 32 0xFF = none ∧
  decodeTableWord 32 0x101 = none ∧ decodeTableWord 32 0x80000002 = none ∧ decodeTableWord 32 0xFFFFFFFF = none

/-! ### Registers -/

/-- R56: what `RegRead(n)` returns, in either phase, and that it changes nothing of the block; while `BUSY = 1` it
returns exactly 1 for `STATUS` and 0 for `RESULT` (in every state that meets the invariant). -/
def Obligations.RegisterReadsReturnTheRegisters : Prop :=
  ∀ s : State,
    (∀ n, hostAct s (.regRead n) = .next { s with seen := .reg n (regValue s n) :: s.seen }) ∧
    regValue s 0 = 0 ∧
    (regValue s 1).toNat = 16 * (errCode s.err).toNat + (if s.done then 2 else 0) + (if s.busy then 1 else 0) ∧
    (regValue s 2).toNat = (if s.alpha then 1 else 0) ∧
    (regValue s 3).toNat = s.width.toNat ∧ (regValue s 4).toNat = s.height.toNat ∧
    regValue s 5 = s.payLen ∧ regValue s 6 = s.result ∧
    (∀ n, 7 ≤ n → regValue s n = 0) ∧
    (s.Inv → s.busy = true → regValue s 1 = 0x00000001#32 ∧ regValue s 6 = 0)

/-- R57: what a register write does while the block is idle; every other piece of state keeps its value. -/
def Obligations.IdleRegisterWritesStoreTheirField : Prop :=
  ∀ (s : State) (v : Word), s.busy = false →
    hostAct s (.regWrite 0 v) = .next (issue s v) ∧
    hostAct s (.regWrite 1 v) = .next s ∧
    hostAct s (.regWrite 2 v) = .next { s with alpha := v.getLsbD 0 } ∧
    hostAct s (.regWrite 3 v) = .next { s with width := v.extractLsb' 0 16 } ∧
    hostAct s (.regWrite 4 v) = .next { s with height := v.extractLsb' 0 16 } ∧
    hostAct s (.regWrite 5 v) = .next { s with payLen := v } ∧
    hostAct s (.regWrite 6 v) = .next s ∧
    ∀ n, 7 ≤ n → hostAct s (.regWrite n v) = .next s

/-- R16 to R19 with R56 and R57 (vector V2): a register reads back what was written, cut to its field, and the write
shows in no other register. -/
def Obligations.WrittenRegistersReadBack : Prop :=
  ∀ (s t : State) (n : Nat) (v : Word), s.busy = false → n ≠ 0 → hostAct s (.regWrite n v) = .next t →
    (∀ m, m ≠ n → regValue t m = regValue s m) ∧
    (regValue t n).toNat =
      if n = 2 then v.toNat % 2
      else if n = 3 ∨ n = 4 then v.toNat % 65536
      else if n = 5 then v.toNat
      else (regValue s n).toNat

/-- R58: every register write while `BUSY = 1` is dropped; so, whatever step a busy machine takes short of a reset or a
loss of power, the operand registers keep the values they had. -/
def Obligations.BusyRegisterWritesAreDropped : Prop :=
  (∀ (s : State) (n : Nat) (v : Word), s.busy = true → hostAct s (.regWrite n v) = .next s) ∧
  ∀ s t : State, s.busy = true → step s = .next t →
    (∀ u, nextTurn s ≠ .host .reset u) → (∀ u, nextTurn s ≠ .host .powerCycle u) →
    t.alpha = s.alpha ∧ t.width = s.width ∧ t.height = s.height ∧ t.payLen = s.payLen

/-- R59 and R105: acceptance of a legal word, and the report of an illegal one, each in the one step of the `CMD`
write; no memory and no operand register changes. -/
def Obligations.CommandWriteAcceptsOrReports : Prop :=
  ∀ (s : State) (v : Word), s.busy = false →
    (∀ i, decode v = .ok i →
      hostAct s (.regWrite 0 v) =
        .next { s with result := 0, err := .none, op := v.extractLsb' 0 2, done := false, busy := true }) ∧
    ((∀ i, decode v ≠ .ok i) →
      hostAct s (.regWrite 0 v) =
        .next { s with result := 0, err := .illegalCommand, done := true, busy := false })

/-- R67: a step of the machine starts a command only by a `CMD` write of a legal word; and while a command runs, nothing
restarts or alters it: a step that leaves the block busy leaves all of it as it was. -/
def Obligations.OnlyACommandWriteStartsACommand : Prop :=
  (∀ s t : State, s.busy = false → step s = .next t → t.busy = true →
    ∃ v as i, s.script = .regWrite 0 v :: as ∧ decode v = .ok i ∧ opInstr t.op = some i) ∧
  ∀ s t : State, s.busy = true → step s = .next t → t.busy = true →
    t = { s with script := t.script, turns := t.turns, seen := t.seen }

/-- R106: the outcome of a command stays readable until the next `CMD` write, a reset or a loss of power; a `CMD` write
clears it, whatever it was, and a legal word is accepted whatever error the last command reported. -/
def Obligations.OutcomeStaysUntilTheNextCommand : Prop :=
  (∀ s t : State, s.busy = false → step s = .next t →
    (∀ v as, s.script ≠ .regWrite 0 v :: as) → (∀ as, s.script ≠ .reset :: as) →
    (∀ as, s.script ≠ .powerCycle :: as) →
    t.busy = false ∧ t.done = s.done ∧ t.err = s.err ∧ t.result = s.result) ∧
  ∀ (s : State) (v : Word), s.busy = false → ∃ t, hostAct s (.regWrite 0 v) = .next t ∧ t.result = 0 ∧
    ∀ i, decode v = .ok i → t.err = .none ∧ t.done = false ∧ t.busy = true

/-- R100: the codes of the error kinds; no kind has a code above 5. -/
def Obligations.ErrorCodesAreThoseOfTheTable : Prop :=
  errCode .none = 0 ∧ errCode .invalidDimensions = 1 ∧ errCode .capacityExceeded = 2 ∧
  errCode .noHiddenMessage = 3 ∧ errCode .invalidEncoding = 4 ∧ errCode .illegalCommand = 5 ∧
  ∀ e, (errCode e).toNat ≤ 5

/-! ### The host's memory accesses -/

/-- R63, where the platform has the byte (R40, log entry 8): a read returns the byte and changes nothing of the block;
a write stores the byte, and no other byte and no register changes. -/
def Obligations.HostMemoryAccessesReachTheByte : Prop :=
  ∀ (s : State) (sp : Space) (a : Word), s.busy = false → a.toNat < s.pop sp →
    hostAct s (.memRead sp a) = .next { s with seen := .mem sp a (s.byte sp a.toNat) :: s.seen } ∧
    ∀ v : Byte, ∃ t, hostAct s (.memWrite sp a v) = .next t ∧
      t = { s with pix := t.pix, pay := t.pay } ∧
      ∀ sp' b, t.byte sp' b = if sp' = sp ∧ b = a.toNat then v else s.byte sp' b

/-- R64: a host access to a memory while the block is busy has no meaning. -/
def Obligations.HostMemoryAccessWhileBusyIsRefused : Prop :=
  ∀ (s : State) (sp : Space) (a : Word) (v : Byte), s.busy = true →
    hostAct s (.memRead sp a) = .refused (.hostMemoryWhileBusy sp) ∧
    hostAct s (.memWrite sp a v) = .refused (.hostMemoryWhileBusy sp)

/-! ### Arithmetic and addresses -/

/-- R5: with these widths nothing wraps. -/
def Obligations.NothingWrapsOnALegalGrid : Prop :=
  ∀ s : State, legalGrid s →
    gridWidth s ≤ 32767 ∧ gridHeight s ≤ 32767 ∧
    gridWidth s * gridHeight s ≤ 1073676289 ∧
    (slotCount s : Int) = gridWidth s * gridHeight s * 3 ∧
    slotCount s ≤ 0xBFFD0003 ∧ slotCount s < 2 ^ 32 ∧
    gridBytes s ≤ 0xFFFC0003 + 1 ∧ gridBytes s < 2 ^ 32 ∧
    wholeBytes s ≤ 402628608 ∧
    bitsNeeded s ≤ 2 ^ 35 + 64

/-- R33: the address of a slot, for each pixel format; no two slots share a byte, and no slot of a legal grid wraps. -/
def Obligations.SlotAddressesAreDistinctAndInTheGrid : Prop :=
  (∀ n, slotAddr false n = n) ∧
  (∀ n, slotAddr true n = 4 * (n / 3) + n % 3 ∧ slotAddr true n % 4 ≠ 3) ∧
  (∀ al m n, slotAddr al m = slotAddr al n → m = n) ∧
  ∀ s : State, legalGrid s → ∀ n < slotCount s,
    slotAddr s.alpha n < gridBytes s ∧ (slotAddr s.alpha n : Int) ≤ gridWidth s * gridHeight s * 4 - 2 ∧
      slotAddr s.alpha n < 2 ^ 32

/-! ### CAPACITY -/

/-- R70, R72 and R73: with a dimension that is not positive CAPACITY raises InvalidDimensions; on every other grid it
completes with `floor(w*h*3 / 8)`, which the 32-bit datapath gives as well, by a logical shift; `RESULT - 9` is negative
exactly for fewer than 24 pixels. -/
def Obligations.CapacityCompletesWithTheFloor : Prop :=
  (∀ s : State, s.width.toInt ≤ 0 ∨ s.height.toInt ≤ 0 →
    exec .capacity s = .next { s with result := 0, err := .invalidDimensions, done := true, busy := false }) ∧
  ∀ s : State, 0 < s.width.toInt → 0 < s.height.toInt →
    ∃ r : Word,
      exec .capacity s = .next { s with result := r, err := .none, done := true, busy := false } ∧
      (r.toNat : Int) = s.width.toInt * s.height.toInt * 3 / 8 ∧
      r = (s.width.setWidth 32 * s.height.setWidth 32 * 3#32) >>> 3 ∧
      ((r.toNat : Int) - 9 < 0 ↔ s.width.toInt * s.height.toInt < 24)

/-- R71: CAPACITY raises InvalidDimensions exactly when a dimension is not positive, that is when a field is 0 or has
bit 15 set. -/
def Obligations.CapacityRaisesInvalidDimensionsExactly : Prop :=
  ∀ s : State, ∃ t, exec .capacity s = .next t ∧
    (t.err = .invalidDimensions ↔ s.width.toInt ≤ 0 ∨ s.height.toInt ≤ 0) ∧
    (t.err = .invalidDimensions ↔
      s.width = 0 ∨ s.width.getLsbD 15 = true ∨ s.height = 0 ∨ s.height.getLsbD 15 = true) ∧
    (t.err = .invalidDimensions → t = { s with result := 0, err := .invalidDimensions, done := true, busy := false })

/-- R74: CAPACITY changes `STATUS` and `RESULT` only, depends on `WIDTH` and `HEIGHT` only, and gives the same outcome
again. -/
def Obligations.CapacityIsPure : Prop :=
  ∀ s : State, ∃ t, exec .capacity s = .next t ∧
    t = { s with result := t.result, err := t.err, done := true, busy := false } ∧
    exec .capacity t = .next t ∧
    ∀ s' t' : State, s'.width = s.width → s'.height = s.height → exec .capacity s' = .next t' →
      t'.result = t.result ∧ t'.err = t.err

/-! ### EMBED -/

/-- R76: EMBED tests the dimensions first. -/
def Obligations.EmbedRaisesInvalidDimensionsFirst : Prop :=
  ∀ s : State, s.width.toInt ≤ 0 ∨ s.height.toInt ≤ 0 →
    exec .embed s = .next { s with result := 0, err := .invalidDimensions, done := true, busy := false }

/-- R77: on a legal grid EMBED raises CapacityExceeded exactly when `8*(L+9) > w*h*3`, compared in unbounded integers,
which is the test `L + 9 <= T div 8` of the hardware; both memories are then what they were. -/
def Obligations.EmbedRaisesCapacityExceededExactly : Prop :=
  ∀ s : State, legalGrid s →
    ((8 * (s.payLen.toNat + 9) : Int) > gridWidth s * gridHeight s * 3 →
      exec .embed s = .next { s with result := 0, err := .capacityExceeded, done := true, busy := false }) ∧
    ((8 * (s.payLen.toNat + 9) : Int) ≤ gridWidth s * gridHeight s * 3 →
      ∀ t, exec .embed s = .next t → t.err ≠ .capacityExceeded) ∧
    ((8 * (s.payLen.toNat + 9) : Int) ≤ gridWidth s * gridHeight s * 3 ↔ s.payLen.toNat + 9 ≤ slotCount s / 8)

/-- R78: EMBED succeeds on a legal, populated grid exactly when `L + 9` is at most what CAPACITY reports; with fewer
than 24 pixels no payload fits. -/
def Obligations.EmbedSucceedsExactlyWithinCapacity : Prop :=
  ∀ s c : State, legalGrid s → populatedFor .embed s → exec .capacity s = .next c →
    ((∃ t, exec .embed s = .next t ∧ t.err = .none) ↔ s.payLen.toNat + 9 ≤ c.result.toNat) ∧
    (gridWidth s * gridHeight s < 24 → ∃ t, exec .embed s = .next t ∧ t.err = .capacityExceeded)

/-- R79: the bits of the BitStream, most-significant bit first within each byte of `PAY[0 .. L) ++ DELIM`, the last 72
of them always those of `DELIM`. -/
def Obligations.BitStreamIsPayloadThenDelimiter : Prop :=
  ∀ s : State,
    (∀ n < 8 * (s.payLen.toNat + 9),
      some (streamBit s n) = ((payloadBytes s ++ delim)[n / 8]?).map (fun b => b.getLsbD (7 - n % 8))) ∧
    ∀ n < 72, streamBit s (8 * s.payLen.toNat + n) =
      (0b001000110010001100100011010001010100111001000100001000110010001100100011#72).getLsbD (71 - n)

/-- R75 and R83: EMBED's two tests, and, on a legal, populated grid that the stream fits, its completion.  Slot `n` of
the first `N` holds its old bits 7 to 1 and `bit(n)`; every other byte of both memories, and every register but `STATUS`
and `RESULT`, is what it was; and the LSB byte stream now begins with payload and delimiter. -/
def Obligations.EmbedWritesTheStreamAndNothingElse : Prop :=
  (∀ s : State, ¬ legalGrid s →
    exec .embed s = .next { s with result := 0, err := .invalidDimensions, done := true, busy := false }) ∧
  (∀ s : State, legalGrid s → slotCount s < 8 * (s.payLen.toNat + 9) →
    exec .embed s = .next { s with result := 0, err := .capacityExceeded, done := true, busy := false }) ∧
  ∀ s : State, legalGrid s → populatedFor .embed s → 8 * (s.payLen.toNat + 9) ≤ slotCount s →
    ∃ t, exec .embed s = .next t ∧
      t = { s with pix := t.pix, result := t.result, err := .none, done := true, busy := false } ∧
      t.result.toNat = 8 * (s.payLen.toNat + 9) ∧
      (∀ n < 8 * (s.payLen.toNat + 9),
        t.byte .pix (slotAddr s.alpha n) =
          (s.byte .pix (slotAddr s.alpha n) &&& 0xFE) ||| (if streamBit s n then 1 else 0)) ∧
      (∀ a, (∀ n < 8 * (s.payLen.toNat + 9), a ≠ slotAddr s.alpha n) → t.byte .pix a = s.byte .pix a) ∧
      (∀ a, t.byte .pay a = s.byte .pay a) ∧
      ∀ k < s.payLen.toNat + 9, some (lsbByte t k) = (payloadBytes s ++ delim)[k]?

/-- R80: a channel value of the stream becomes its bits 7 to 1 and the stream's bit; so it changes by at most 1, and its
bits 7 to 1 never. -/
def Obligations.EmbedDistortsAChannelByAtMostOne : Prop :=
  ∀ s t : State, exec .embed s = .next t →
    (t.err = .none → ∀ n < bitsNeeded s,
      t.byte .pix (slotAddr s.alpha n) =
        (s.byte .pix (slotAddr s.alpha n) &&& 0xFE) ||| (if streamBit s n then 1 else 0)) ∧
    ∀ a, (t.byte .pix a).toNat / 2 = (s.byte .pix a).toNat / 2 ∧
    (t.byte .pix a).toNat ≤ (s.byte .pix a).toNat + 1 ∧ (s.byte .pix a).toNat ≤ (t.byte .pix a).toNat + 1

/-- R81: what EMBED leaves untouched: the slots from `N` on, every alpha byte, every PIX byte above the grid, PAY, and
the operand registers. -/
def Obligations.EmbedLeavesTheRestUntouched : Prop :=
  ∀ s t : State, exec .embed s = .next t →
    (∀ n, 8 * (s.payLen.toNat + 9) ≤ n → t.byte .pix (slotAddr s.alpha n) = s.byte .pix (slotAddr s.alpha n)) ∧
    (s.alpha = true → ∀ a, a % 4 = 3 → t.byte .pix a = s.byte .pix a) ∧
    (∀ a, gridBytes s ≤ a → t.byte .pix a = s.byte .pix a) ∧
    t.pay = s.pay ∧
    t.alpha = s.alpha ∧ t.width = s.width ∧ t.height = s.height ∧ t.payLen = s.payLen

/-- R84: an EMBED replaces the first `N` bits of whatever the grid held and leaves the bits after them; a second EMBED
of the same payload leaves the grid of the first. -/
def Obligations.EmbedTwiceIsEmbedOnce : Prop :=
  ∀ s t : State, exec .embed s = .next t → t.err = .none →
    (∀ n, slotBit t n = if n < bitsNeeded s then streamBit s n else slotBit s n) ∧
    ∃ u, exec .embed t = .next u ∧ u.err = .none ∧ u.result = t.result ∧ ∀ sp a, u.byte sp a = t.byte sp a

/-! ### EXTRACT -/

/-- R86: the LSB byte stream.  Byte `k` is the sum of its eight slots' low bits, the first slot the most significant;
and the stream depends on the number of slots, on `ALPHA` and on the slots' low bits only. -/
def Obligations.LsbByteStreamIsTheSlotsLowBits : Prop :=
  (∀ (s : State) (k : Nat),
    (lsbByte s k).toNat =
      ∑ j ∈ Finset.range 8, (if (s.byte .pix (slotAddr s.alpha (8 * k + j))).getLsbD 0 then 1 else 0) * 2 ^ (7 - j)) ∧
  ∀ s t : State, slotCount s = slotCount t → s.alpha = t.alpha →
    (∀ n < slotCount s, (s.byte .pix (slotAddr s.alpha n)).getLsbD 0 = (t.byte .pix (slotAddr s.alpha n)).getLsbD 0) →
    wholeBytes s = wholeBytes t ∧ ∀ k < wholeBytes s, lsbByte s k = lsbByte t k

/-- R88: EXTRACT tests the dimensions first. -/
def Obligations.ExtractRaisesInvalidDimensionsFirst : Prop :=
  ∀ s : State, s.width.toInt ≤ 0 ∨ s.height.toInt ≤ 0 →
    exec .extract s = .next { s with result := 0, err := .invalidDimensions, done := true, busy := false }

/-- R99, with R89 to R92 and R94: with a dimension that is not positive EXTRACT raises InvalidDimensions; on a legal,
populated grid the slot loop of rule R85 completes, and its outcome is the function of the LSB byte stream `b` that rule
R99 gives; every register but `STATUS` and `RESULT`, and every byte of both memories but the stored ones, is what it
was. -/
def Obligations.ExtractIsTheFunctionOfItsStream : Prop :=
  (∀ s : State, ¬ legalGrid s →
    exec .extract s = .next { s with result := 0, err := .invalidDimensions, done := true, busy := false }) ∧
  ∀ s : State, legalGrid s → populatedFor .extract s →
    ((∀ k, 8 ≤ k → k < wholeBytes s → ∃ i < 9, lsbByte s (k - 8 + i) ≠ delim.getD i 0) →
      ∃ t, exec .extract s = .next t ∧
        t = { s with pay := t.pay, result := 0, err := .noHiddenMessage, done := true, busy := false } ∧
        ∀ a, t.byte .pay a = if a < wholeBytes s then lsbByte s a else s.byte .pay a) ∧
    ∀ n, n + 8 < wholeBytes s →
      (∀ i < 9, lsbByte s (n + i) = delim.getD i 0) →
      (∀ m < n, ∃ i < 9, lsbByte s (m + i) ≠ delim.getD i 0) →
      ∃ t, exec .extract s = .next t ∧
        t = { s with pay := t.pay, result := t.result, err := t.err, done := true, busy := false } ∧
        (∀ a, t.byte .pay a = if a < n + 9 then lsbByte s a else s.byte .pay a) ∧
        (utf8Valid ((List.range n).map (lsbByte s)) = true → t.err = .none ∧ t.result.toNat = n) ∧
        (utf8Valid ((List.range n).map (lsbByte s)) = false → t.err = .invalidEncoding ∧ t.result = 0)

/-- R94: EXTRACT raises NoHiddenMessage exactly when no byte passes the test of rule R89; a grid of fewer than 72 slots
always does. -/
def Obligations.NoHiddenMessageExactlyWithoutADelimiter : Prop :=
  ∀ s t : State, legalGrid s → exec .extract s = .next t →
    (t.err = .noHiddenMessage ↔ ∀ k, 8 ≤ k → k < wholeBytes s → ∃ i < 9, lsbByte s (k - 8 + i) ≠ delim.getD i 0) ∧
    (slotCount s < 72 → t.err = .noHiddenMessage) ∧
    (t.err = .noHiddenMessage → t.result = 0 ∧ ∀ k < wholeBytes s, t.byte .pay k = lsbByte s k)

/-- R97: EXTRACT writes no PIX byte; issued again it gives the same `ERR`, the same `RESULT` and the same PAY; and what
PAY and `PAY_LEN` held does not influence the outcome. -/
def Obligations.ExtractAgainGivesTheSame : Prop :=
  ∀ s t : State, exec .extract s = .next t →
    t.pix = s.pix ∧
    (∃ u, exec .extract t = .next u ∧ u.err = t.err ∧ u.result = t.result ∧ ∀ sp a, u.byte sp a = t.byte sp a) ∧
    ∀ (q : Memory) (l : Word), ∃ u, exec .extract { s with pay := q, payLen := l } = .next u ∧
      u.err = t.err ∧ u.result = t.result

/-- R93: `UTF8_VALID` is the predicate "a concatenation of well-formed sequences", each well-formed by a row of the
rule's table, whose ranges `wellFormedSequence` writes out. -/
def Obligations.Utf8ValidIsACutIntoWellFormedSequences : Prop :=
  ∀ l : List Byte,
    utf8Valid l = true ↔ ∃ qs : List (List Byte), l = qs.flatten ∧ ∀ q ∈ qs, wellFormedSequence q

/-! ### EMBED and EXTRACT together -/

/-- R96: the round trip.  After a successful EMBED of payload `P`, an EXTRACT of a legal, populated grid with the same
`ALPHA`, at least `8*(L+9)` slots, and the same low bit in each of the first `8*(L+9)` slots, recovers `P` if `DELIM`
occurs in `P ++ DELIM` at no offset below `L`; it reports InvalidEncoding, with the same bytes in PAY, if `P` is not
valid UTF-8.  Dimensions may differ, and so may everything else. -/
def Obligations.ExtractRecoversWhatEmbedStored : Prop :=
  ∀ s t u : State, exec .embed s = .next t → t.err = .none →
    legalGrid u → populatedFor .extract u → u.alpha = s.alpha → bitsNeeded s ≤ slotCount u →
    (∀ n < bitsNeeded s, slotBit u n = slotBit t n) →
    (∀ i < s.payLen.toNat, ¬ delimAt (payloadBytes s ++ delim) i) →
    ∃ v, exec .extract u = .next v ∧
      (∀ k < s.payLen.toNat, v.byte .pay k = s.byte .pay k) ∧
      (utf8Valid (payloadBytes s) = true → v.err = .none ∧ v.result = s.payLen) ∧
      (utf8Valid (payloadBytes s) = false → v.err = .invalidEncoding ∧ v.result = 0)

/-- R95: early match.  After a successful EMBED of payload `P`, EXTRACT stops at the least offset `i` at which `DELIM`
occurs in `P ++ DELIM`, which is at most `L`, and delivers `P[0 .. i)`.  An occurrence below `L` exists exactly when `P`
contains `DELIM` or ends with `###END`, `###END#` or `###END##`. -/
def Obligations.ExtractStopsAtTheFirstDelimiter : Prop :=
  (∀ s t u : State, exec .embed s = .next t → t.err = .none →
    legalGrid u → populatedFor .extract u → u.alpha = s.alpha → bitsNeeded s ≤ slotCount u →
    (∀ n < bitsNeeded s, slotBit u n = slotBit t n) →
    ∃ i ≤ s.payLen.toNat,
      delimAt (payloadBytes s ++ delim) i ∧ (∀ j < i, ¬ delimAt (payloadBytes s ++ delim) j) ∧
      ∃ v, exec .extract u = .next v ∧
        (∀ k < i, v.byte .pay k = s.byte .pay k) ∧
        (utf8Valid ((payloadBytes s).take i) = true → v.err = .none ∧ v.result.toNat = i) ∧
        (utf8Valid ((payloadBytes s).take i) = false → v.err = .invalidEncoding ∧ v.result = 0)) ∧
  ∀ P : List Byte,
    (∃ i < P.length, delimAt (P ++ delim) i) ↔
      (∃ X Y, P = X ++ delim ++ Y) ∨
      (∃ X, P = X ++ [0x23, 0x23, 0x23, 0x45, 0x4E, 0x44]) ∨
      (∃ X, P = X ++ [0x23, 0x23, 0x23, 0x45, 0x4E, 0x44, 0x23]) ∨
      (∃ X, P = X ++ [0x23, 0x23, 0x23, 0x45, 0x4E, 0x44, 0x23, 0x23])

/-! ### Errors, inputs and memory that is there -/

/-- R103: the order of the tests, the first failing one reporting. -/
def Obligations.FirstFailingTestReports : Prop :=
  ∀ s : State,
    (s.busy = true → ∀ v, hostAct s (.regWrite 0 v) = .next s) ∧
    (s.busy = false → ∀ v t, (∀ i, decode v ≠ .ok i) → hostAct s (.regWrite 0 v) = .next t → t.err = .illegalCommand) ∧
    (¬ legalGrid s → ∀ i, ∃ t, exec i s = .next t ∧ t.err = .invalidDimensions) ∧
    (legalGrid s → ∀ i t, exec i s = .next t → t.err ≠ .invalidDimensions ∧ t.err ≠ .illegalCommand) ∧
    (∀ t, exec .capacity s = .next t → t.err = .none ∨ t.err = .invalidDimensions) ∧
    (∀ t, exec .embed s = .next t → t.err = .none ∨ t.err = .invalidDimensions ∨ t.err = .capacityExceeded) ∧
    (∀ t, exec .extract s = .next t → t.err ≠ .capacityExceeded) ∧
    (∀ t, exec .extract s = .next t →
      (t.err = .none ∨ t.err = .invalidEncoding ↔ legalGrid s ∧ ∃ k, stopsAt s k))

/-- R102: every error is precise.  The operand registers and PIX are what they were; PAY is too, but for the bytes an
EXTRACT stores before it fails: the whole LSB byte stream if it finds no delimiter, else as far as the delimiter.  An
illegal command word leaves both memories and the operand registers as they were. -/
def Obligations.ErrorsLeaveNoPartialWrites : Prop :=
  (∀ (s t : State) (v : Word), s.busy = false → (∀ i, decode v ≠ .ok i) → hostAct s (.regWrite 0 v) = .next t →
    t.pix = s.pix ∧ t.pay = s.pay ∧ t.alpha = s.alpha ∧ t.width = s.width ∧ t.height = s.height ∧
    t.payLen = s.payLen) ∧
  ∀ (i : Instr) (s t : State), exec i s = .next t → t.err ≠ .none →
    t.result = 0 ∧ t.alpha = s.alpha ∧ t.width = s.width ∧ t.height = s.height ∧ t.payLen = s.payLen ∧
    t.pix = s.pix ∧
    (i ≠ .extract ∨ t.err = .invalidDimensions → t.pay = s.pay) ∧
    (t.err = .noHiddenMessage →
      ∀ k, t.byte .pay k = if k < wholeBytes s then lsbByte s k else s.byte .pay k) ∧
    (t.err = .invalidEncoding → ∃ n, stopsAt s n ∧
      ∀ k, t.byte .pay k = if k < n + 1 then lsbByte s k else s.byte .pay k)

/-- R26: the outcome of a command is a function of the operand registers and of the contents of the two memories, and
of nothing else: not of `STATUS` or `RESULT`, nor of anything the model holds beside the block. -/
def Obligations.OutcomeIsAFunctionOfTheInputs : Prop :=
  ∀ (i : Instr) (s t s' : State), s.sameInputs t → exec i s = .next s' →
    ∃ t', exec i t = .next t' ∧ s'.sameOutcome t'

/-- R34: a PIX byte that is no slot of the grid is never accessed.  Two states that differ only in such bytes give the
same `ERR`, `RESULT` and PAY, the same bytes in the slots, and each keeps its own bytes elsewhere. -/
def Obligations.BytesOutsideTheSlotsAreNeverAccessed : Prop :=
  ∀ (i : Instr) (s s' : State) (p : Memory), exec i s = .next s' → legalGrid s →
    (∀ n < slotCount s, ({ s with pix := p } : State).byte .pix (slotAddr s.alpha n) = s.byte .pix (slotAddr s.alpha n)) →
    ∃ t', exec i { s with pix := p } = .next t' ∧ t'.err = s'.err ∧ t'.result = s'.result ∧
      (∀ a, t'.byte .pay a = s'.byte .pay a) ∧
      (∀ n < slotCount s, t'.byte .pix (slotAddr s.alpha n) = s'.byte .pix (slotAddr s.alpha n)) ∧
      ∀ a, (∀ n < slotCount s, a ≠ slotAddr s.alpha n) →
        t'.byte .pix a = ({ s with pix := p } : State).byte .pix a

/-- R69 `memory_written` with R120: a command that reads only bytes something has written since power-on does the same
whatever the memories held at power-on (log entry 1); and where the host has written what rule R69 asks for, the command
reads only such bytes. -/
def Obligations.PowerOnContentsDoNotMatterOnceWritten : Prop :=
  ∀ (i : Instr) (s : State),
    (∀ (t : State) (e : Nat), listedFor i s → exec i s = .next t →
      exec i { s with epoch := e } = .next { t with epoch := e }) ∧
    ∀ w : Written, s.lists w → memoryWrittenFor w i s = true → listedFor i s

/-- R69 `populated` with R39, R40, R123 and U3: a command whose memory is there always completes; so does one whose memory
is there as far as the command reaches; a command is refused only if it would reach an address that is not there; and no
command ends in a fault.  That a refusal is decided by what the command reaches is the model's reading (log entry 7). -/
def Obligations.PopulatedCommandsComplete : Prop :=
  ∀ (i : Instr) (s : State),
    (populatedFor i s → ∃ t, exec i s = .next t ∧ t.done = true ∧ t.busy = false) ∧
    ((∀ n < slotsReached i s, slotAddr s.alpha n < s.pixPop) → bytesReached i s ≤ s.payPop →
      ∃ t, exec i s = .next t ∧ t.done = true ∧ t.busy = false) ∧
    (∀ r, exec i s = .refused r →
      i ≠ .capacity ∧ legalGrid s ∧
      (r = .commandUnpopulated .pix ∧ (∃ n < slotsReached i s, s.pixPop ≤ slotAddr s.alpha n) ∨
        r = .commandUnpopulated .pay ∧ s.payPop < bytesReached i s)) ∧
    ∀ f, exec i s ≠ .fault f

/-! ### The machine -/

/-- R60 and R62: the engine's turn.  While the block is busy with command `i`, and the host has no action left or no
turn before it, the step is exactly `exec i`; an engine's turn that the schedule names is used up by it. -/
def Obligations.EngineStepRunsTheCommandInExecution : Prop :=
  ∀ (s : State) (i : Instr), s.busy = true → opInstr s.op = some i →
    (s.script = [] ∨ s.turns = [] → step s = exec i s) ∧
    ∀ a as ts, s.script = a :: as → s.turns = .engine :: ts → step s = exec i { s with turns := ts }

/-- R55: the host's turn.  While the block is idle, or the schedule gives the host the turn, the step is the script's
next action, taken off the script. -/
def Obligations.HostStepTakesTheNextAction : Prop :=
  ∀ (s : State) (a : HostStep) (as : List HostStep), s.script = a :: as →
    (s.busy = false → step s = hostAct { s with script := as } a) ∧
    ∀ ts, s.busy = true → s.turns = .host :: ts → step s = hostAct { s with script := as, turns := ts } a

/-- R45, R59 and R60: a step runs the decoded command.  A `CMD` write of a word that decodes to `i`, taken by an idle
block, is followed by a step that is exactly `exec i`; and a word placed as the next command (log entry 5) is run by
the very next step. -/
def Obligations.WrittenCommandIsRun : Prop :=
  (∀ (s : State) (v : Word) (i : Instr) (as : List HostStep),
    s.busy = false → s.script = .regWrite 0 v :: as → decode v = .ok i → as = [] ∨ s.turns = [] →
    ∃ t, step s = .next t ∧ step t = exec i t ∧
      t = { s with
        script := as, result := 0, err := .none, op := v.extractLsb' 0 2, done := false, busy := true }) ∧
  ∀ (s : State) (w : Nat) (i : Instr), decodeTableWord 32 w = some i →
    step (s.withFetchWord 32 w) = exec i (s.withFetchWord 32 w)

/-- R68: at rest nothing moves. -/
def Obligations.RestIsStable : Prop :=
  ∀ s : State, s.atRest → step s = .next s

/-- The invariant (R15, R20, R62, canonical memories) holds after power-on. -/
def Obligations.InvariantHoldsAtReset : Prop := State.reset.Inv

/-- Every step keeps the invariant: R15, R20 and R62, the bound of R5 on `RESULT`, and the canonical form of both
memories with every address a 32-bit one. -/
def Obligations.EveryStepKeepsTheInvariant : Prop :=
  ∀ s t : State, s.Inv → step s = .next t → t.Inv

/-- R61 as the model renders it (log entry 4): a busy block with a command leaves phase BUSY within as many steps as the
schedule has turns, and one more, unless a step on the way is refused; it never stops with a fault. -/
def Obligations.BusyBlockCompletesWithinItsTurns : Prop :=
  ∀ s : State, s.busy = true → s.op ≠ 0 →
    ∃ k ≤ s.turns.length + 1,
      match runFor k s with
      | .next t => t.busy = false
      | .refused _ => True
      | .fault _ => False

/-- P5 (R55, R57, R58): the model admits both schedules of a register write that follows a command without a `WAIT`.  If the
host moves first the write is dropped; if the engine does, the command completes and then the write has its effect. -/
def Obligations.BothSchedulesOfAnEarlyWrite : Prop :=
  ∀ (s : State) (i : Instr) (n : Nat) (v : Word) (as : List HostStep), s.busy = true → opInstr s.op = some i →
    s.script = .regWrite n v :: as →
    (∀ ts, s.turns = .host :: ts → step s = .next { s with script := as, turns := ts }) ∧
    ∀ ts t, s.turns = .engine :: ts → exec i { s with turns := ts } = .next t →
      runFor 2 s = .next (regWriteIdle { t with script := as } n v) ∧
      (n = 3 → runFor 2 s = .next { t with script := as, width := v.extractLsb' 0 16 })

/-- R66: while a command runs, a host that only reads registers reads constants, so acceptance, any such reads, and
completion are one atomic command: the outcome is `exec` of the accepted state, whatever the host read in between. -/
def Obligations.ReadsDuringACommandAreInvisible : Prop :=
  ∀ (s : State) (v : Word) (i : Instr) (ns : List Nat) (as : List HostStep),
    s.busy = false → decode v = .ok i →
    s.script = .regWrite 0 v :: (ns.map HostStep.regRead ++ as) → s.turns = List.replicate ns.length .host →
    runFor (ns.length + 2) s =
      exec i { s with
        result := 0, err := .none, op := v.extractLsb' 0 2, done := false, busy := true, script := as, turns := [],
        seen := (ns.map (fun n => Reading.reg n (if n = 1 then 0x00000001#32
          else if n = 2 ∨ n = 3 ∨ n = 4 ∨ n = 5 then regValue s n else 0))).reverse ++ s.seen }

/-- R69 and R124: in a run from an idle block that keeps the premises of rule R69 the host meets no memory access the
spec gives no meaning; and a single step that keeps them meets none, and leaves the window of rule R69 open if it leaves
the block busy (in every state that meets the invariant, with the window open while the block is busy). -/
def Obligations.OrderlyHostsMeetNoForbiddenAccess : Prop :=
  (∀ (s : State) (k : Nat), s.Inv → s.busy = false → orderlyFor k false s = true →
    ∀ sp, runFor k s ≠ .refused (.hostMemoryWhileBusy sp)) ∧
  ∀ (s : State) (owed : Bool), s.Inv → (s.busy = true → owed = true) → stepAllowed owed s = true →
    (∀ sp, step s ≠ .refused (.hostMemoryWhileBusy sp)) ∧
    ∀ t, step s = .next t → t.busy = true → owedAfter owed s = true

/-- R42, R66 and R125, by the schedules of log entry 4: for a host that keeps the premises of rule R69 the schedule does
not matter.  Whatever turns two runs of the same script take, if both keep the premises and come to rest, the block is in
the same state. -/
def Obligations.ScheduleDoesNotMatterToAnOrderlyHost : Prop :=
  ∀ (s t u : State) (ts us : List Agent) (j k : Nat), s.busy = false →
    orderlyFor j false { s with turns := ts } = true → runFor j { s with turns := ts } = .next t → t.atRest →
    orderlyFor k false { s with turns := us } = true → runFor k { s with turns := us } = .next u → u.atRest →
    t.sameBlock u

/-- R69 with R52: a script with a `WAIT` after every legal `CMD` write keeps the premises of rule R69 from an idle block,
whatever the schedule (log entry 4) and however long it runs. -/
def Obligations.WaitingScriptsKeepThePremises : Prop :=
  ∀ (s : State) (ts : List Agent) (k : Nat), s.busy = false → waitsFirst false s.script = true →
    orderlyFor k false { s with turns := ts } = true

/-- R53, `extract(grid)` from the host's look at `ERR` on: on `ERR = 0` it reads `RESULT` and then `PAY[0 .. n)`, in
ascending order; on an error it takes no action.  The block is as it was.  The procedure completes where the payload is
populated, under every schedule (log entries 4 and 15). -/
def Obligations.ExtractProcedureReadsThePayload : Prop :=
  ∀ (s : State) (old : List Reading), s.busy = false → s.seen = .reg 1 (regValue s 1) :: old →
    (s.err = .none → s.result.toNat ≤ s.payPop →
      (∃ u, performs procReadPayload s u) ∧
      ∀ u, performs procReadPayload s u →
        u = { s with script := [], turns := u.turns, seen := u.seen } ∧
        u.seen = ((List.range s.result.toNat).map
          (fun k => Reading.mem .pay (BitVec.ofNat 32 k) (s.byte .pay k))).reverse ++ .reg 6 s.result :: s.seen) ∧
    (s.err ≠ .none →
      (∃ u, performs procReadPayload s u) ∧
      ∀ u, performs procReadPayload s u → u = { s with script := [], turns := u.turns })

/-- R69 `memory_written` with R120: the list of what the host has written since power-on stays true.  After a step the
memories list every byte it names, whatever the engine or a reset did; a loss of power empties it. -/
def Obligations.WhatTheHostHasWrittenStaysListed : Prop :=
  (∀ (s t : State) (w : Written), s.lists w → step s = .next t → t.lists (writtenAfter w s)) ∧
  (∀ (s : State) (as : List HostStep), s.busy = false → s.script = .powerCycle :: as → ∀ w, writtenAfter w s = []) ∧
  ∀ (s : State) (ts : List Agent) (w : Written), s.busy = true → (s.script = [] ∨ s.turns = [] ∨ s.turns = .engine :: ts) →
    writtenAfter w s = w

/-- R69 `memory_written` with R26, R120 and U4: in a run whose every command reads only bytes the host has written since
power-on, what the memories held at power-on (log entry 1) does not matter.  With any other contents the run answers too,
and ends in the same state, but for the contents themselves and for what the host's own memory reads returned.  Where the
run resets a busy block (R121), the old-or-new draws are taken the same in both runs: the model draws them by the counter
`draws` (log entry 2), while the spec lets each run have its own. -/
def Obligations.PowerOnContentsDoNotMatterToARun : Prop :=
  ∀ (k : Nat) (s t : State) (w : Written) (e : Nat), s.lists w → memoryWrittenRun k w s = true →
    runFor k s = .next t →
    ∃ u, runFor k { s with epoch := e } = .next u ∧ u = { t with epoch := u.epoch, seen := u.seen } ∧
      ∀ n, lastRead n u.seen = lastRead n t.seen

/-- R39 with R77 and R91: what a command reaches.  CAPACITY, and a command that fails its tests, reach nothing; EMBED reaches
its `8 * (L + 9)` slots and its payload; EXTRACT reaches slots and bytes up to the delimiter, or all `T` slots and `T div 8`
bytes.  That a scan without a delimiter reaches the last `T mod 8` slots too is the model's choice (log entry 7). -/
def Obligations.CommandsReachTheirSlotsAndBytes : Prop :=
  ∀ s : State,
    (∀ i, i = .capacity ∨ ¬ legalGrid s → slotsReached i s = 0 ∧ bytesReached i s = 0) ∧
    (legalGrid s →
      (8 * (s.payLen.toNat + 9) ≤ slotCount s →
        slotsReached .embed s = 8 * (s.payLen.toNat + 9) ∧ bytesReached .embed s = s.payLen.toNat) ∧
      (slotCount s < 8 * (s.payLen.toNat + 9) → slotsReached .embed s = 0 ∧ bytesReached .embed s = 0) ∧
      (∀ k, stopsAt s k → slotsReached .extract s = 8 * (k + 1) ∧ bytesReached .extract s = k + 1) ∧
      ((∀ k < wholeBytes s, ¬ matchAt s k) →
        slotsReached .extract s = slotCount s ∧ bytesReached .extract s = slotCount s / 8))
end

