-- ==== Sys2Proof/Laws/State.lean ====
section
/-! SUPPORT. What each named update does to each field of the state, true by unfolding the update once. -/

namespace Sys2Proof.Machine

/-! ### The end of a command -/

@[simp] theorem finish_alpha (s : State) (e : ErrKind) (r : Word) : (finish s e r).alpha = s.alpha := rfl
@[simp] theorem finish_width (s : State) (e : ErrKind) (r : Word) : (finish s e r).width = s.width := rfl
@[simp] theorem finish_height (s : State) (e : ErrKind) (r : Word) : (finish s e r).height = s.height := rfl
@[simp] theorem finish_payLen (s : State) (e : ErrKind) (r : Word) : (finish s e r).payLen = s.payLen := rfl
@[simp] theorem finish_busy (s : State) (e : ErrKind) (r : Word) : (finish s e r).busy = false := rfl
@[simp] theorem finish_done (s : State) (e : ErrKind) (r : Word) : (finish s e r).done = true := rfl
@[simp] theorem finish_err (s : State) (e : ErrKind) (r : Word) : (finish s e r).err = e := rfl
@[simp] theorem finish_result (s : State) (e : ErrKind) (r : Word) : (finish s e r).result = r := rfl
@[simp] theorem finish_op (s : State) (e : ErrKind) (r : Word) : (finish s e r).op = s.op := rfl
@[simp] theorem finish_pix (s : State) (e : ErrKind) (r : Word) : (finish s e r).pix = s.pix := rfl
@[simp] theorem finish_pay (s : State) (e : ErrKind) (r : Word) : (finish s e r).pay = s.pay := rfl
@[simp] theorem finish_script (s : State) (e : ErrKind) (r : Word) : (finish s e r).script = s.script := rfl
@[simp] theorem finish_turns (s : State) (e : ErrKind) (r : Word) : (finish s e r).turns = s.turns := rfl
@[simp] theorem finish_seen (s : State) (e : ErrKind) (r : Word) : (finish s e r).seen = s.seen := rfl
@[simp] theorem finish_pixPop (s : State) (e : ErrKind) (r : Word) : (finish s e r).pixPop = s.pixPop := rfl
@[simp] theorem finish_payPop (s : State) (e : ErrKind) (r : Word) : (finish s e r).payPop = s.payPop := rfl
@[simp] theorem finish_epoch (s : State) (e : ErrKind) (r : Word) : (finish s e r).epoch = s.epoch := rfl
@[simp] theorem finish_draws (s : State) (e : ErrKind) (r : Word) : (finish s e r).draws = s.draws := rfl

@[simp] theorem completeOk_eq (s : State) (v : Word) : completeOk s v = finish s .none v := rfl
@[simp] theorem reportError_eq (s : State) (e : ErrKind) : reportError s e = finish s e 0 := rfl

/-! ### Reset of the registers -/

@[simp] theorem clearRegisters_alpha (s : State) : (clearRegisters s).alpha = false := rfl
@[simp] theorem clearRegisters_width (s : State) : (clearRegisters s).width = 0 := rfl
@[simp] theorem clearRegisters_height (s : State) : (clearRegisters s).height = 0 := rfl
@[simp] theorem clearRegisters_payLen (s : State) : (clearRegisters s).payLen = 0 := rfl
@[simp] theorem clearRegisters_busy (s : State) : (clearRegisters s).busy = false := rfl
@[simp] theorem clearRegisters_done (s : State) : (clearRegisters s).done = false := rfl
@[simp] theorem clearRegisters_err (s : State) : (clearRegisters s).err = .none := rfl
@[simp] theorem clearRegisters_result (s : State) : (clearRegisters s).result = 0 := rfl
@[simp] theorem clearRegisters_op (s : State) : (clearRegisters s).op = 0 := rfl
@[simp] theorem clearRegisters_pix (s : State) : (clearRegisters s).pix = s.pix := rfl
@[simp] theorem clearRegisters_pay (s : State) : (clearRegisters s).pay = s.pay := rfl
@[simp] theorem clearRegisters_script (s : State) : (clearRegisters s).script = s.script := rfl
@[simp] theorem clearRegisters_turns (s : State) : (clearRegisters s).turns = s.turns := rfl
@[simp] theorem clearRegisters_seen (s : State) : (clearRegisters s).seen = s.seen := rfl
@[simp] theorem clearRegisters_pixPop (s : State) : (clearRegisters s).pixPop = s.pixPop := rfl
@[simp] theorem clearRegisters_payPop (s : State) : (clearRegisters s).payPop = s.payPop := rfl
@[simp] theorem clearRegisters_epoch (s : State) : (clearRegisters s).epoch = s.epoch := rfl
@[simp] theorem clearRegisters_draws (s : State) : (clearRegisters s).draws = s.draws := rfl

/-! ### A value read by the host -/

@[simp] theorem State.see_alpha (s : State) (r : Reading) : (s.see r).alpha = s.alpha := rfl
@[simp] theorem State.see_width (s : State) (r : Reading) : (s.see r).width = s.width := rfl
@[simp] theorem State.see_height (s : State) (r : Reading) : (s.see r).height = s.height := rfl
@[simp] theorem State.see_payLen (s : State) (r : Reading) : (s.see r).payLen = s.payLen := rfl
@[simp] theorem State.see_busy (s : State) (r : Reading) : (s.see r).busy = s.busy := rfl
@[simp] theorem State.see_done (s : State) (r : Reading) : (s.see r).done = s.done := rfl
@[simp] theorem State.see_err (s : State) (r : Reading) : (s.see r).err = s.err := rfl
@[simp] theorem State.see_result (s : State) (r : Reading) : (s.see r).result = s.result := rfl
@[simp] theorem State.see_op (s : State) (r : Reading) : (s.see r).op = s.op := rfl
@[simp] theorem State.see_pix (s : State) (r : Reading) : (s.see r).pix = s.pix := rfl
@[simp] theorem State.see_pay (s : State) (r : Reading) : (s.see r).pay = s.pay := rfl
@[simp] theorem State.see_script (s : State) (r : Reading) : (s.see r).script = s.script := rfl
@[simp] theorem State.see_turns (s : State) (r : Reading) : (s.see r).turns = s.turns := rfl
@[simp] theorem State.see_seen (s : State) (r : Reading) : (s.see r).seen = r :: s.seen := rfl
@[simp] theorem State.see_pixPop (s : State) (r : Reading) : (s.see r).pixPop = s.pixPop := rfl
@[simp] theorem State.see_payPop (s : State) (r : Reading) : (s.see r).payPop = s.payPop := rfl
@[simp] theorem State.see_epoch (s : State) (r : Reading) : (s.see r).epoch = s.epoch := rfl
@[simp] theorem State.see_draws (s : State) (r : Reading) : (s.see r).draws = s.draws := rfl

/-! ### A byte stored by the host -/

@[simp] theorem State.putByte_alpha (s : State) (sp : Space) (a : Nat) (v : Byte) : (s.putByte sp a v).alpha = s.alpha := by cases sp <;> rfl
@[simp] theorem State.putByte_width (s : State) (sp : Space) (a : Nat) (v : Byte) : (s.putByte sp a v).width = s.width := by cases sp <;> rfl
@[simp] theorem State.putByte_height (s : State) (sp : Space) (a : Nat) (v : Byte) : (s.putByte sp a v).height = s.height := by cases sp <;> rfl
@[simp] theorem State.putByte_payLen (s : State) (sp : Space) (a : Nat) (v : Byte) : (s.putByte sp a v).payLen = s.payLen := by cases sp <;> rfl
@[simp] theorem State.putByte_busy (s : State) (sp : Space) (a : Nat) (v : Byte) : (s.putByte sp a v).busy = s.busy := by cases sp <;> rfl
@[simp] theorem State.putByte_done (s : State) (sp : Space) (a : Nat) (v : Byte) : (s.putByte sp a v).done = s.done := by cases sp <;> rfl
@[simp] theorem State.putByte_err (s : State) (sp : Space) (a : Nat) (v : Byte) : (s.putByte sp a v).err = s.err := by cases sp <;> rfl
@[simp] theorem State.putByte_result (s : State) (sp : Space) (a : Nat) (v : Byte) : (s.putByte sp a v).result = s.result := by cases sp <;> rfl
@[simp] theorem State.putByte_op (s : State) (sp : Space) (a : Nat) (v : Byte) : (s.putByte sp a v).op = s.op := by cases sp <;> rfl
@[simp] theorem State.putByte_pix (s : State) (sp : Space) (a : Nat) (v : Byte) : (s.putByte sp a v).pix = if sp = .pix then s.pix.put a v else s.pix := by cases sp <;> rfl
@[simp] theorem State.putByte_pay (s : State) (sp : Space) (a : Nat) (v : Byte) : (s.putByte sp a v).pay = if sp = .pay then s.pay.put a v else s.pay := by cases sp <;> rfl
@[simp] theorem State.putByte_script (s : State) (sp : Space) (a : Nat) (v : Byte) : (s.putByte sp a v).script = s.script := by cases sp <;> rfl
@[simp] theorem State.putByte_turns (s : State) (sp : Space) (a : Nat) (v : Byte) : (s.putByte sp a v).turns = s.turns := by cases sp <;> rfl
@[simp] theorem State.putByte_seen (s : State) (sp : Space) (a : Nat) (v : Byte) : (s.putByte sp a v).seen = s.seen := by cases sp <;> rfl
@[simp] theorem State.putByte_pixPop (s : State) (sp : Space) (a : Nat) (v : Byte) : (s.putByte sp a v).pixPop = s.pixPop := by cases sp <;> rfl
@[simp] theorem State.putByte_payPop (s : State) (sp : Space) (a : Nat) (v : Byte) : (s.putByte sp a v).payPop = s.payPop := by cases sp <;> rfl
@[simp] theorem State.putByte_epoch (s : State) (sp : Space) (a : Nat) (v : Byte) : (s.putByte sp a v).epoch = s.epoch := by cases sp <;> rfl
@[simp] theorem State.putByte_draws (s : State) (sp : Space) (a : Nat) (v : Byte) : (s.putByte sp a v).draws = s.draws := by cases sp <;> rfl

/-! ### A register write to the idle block that is no command -/

theorem regWriteIdle_alpha (s : State) (n : Nat) (v : Word) (hn : n ≠ 0) : (regWriteIdle s n v).alpha = if n = 2 then v.getLsbD 0 else s.alpha := by
  rcases n with _ | _ | _ | _ | _ | _ | n <;> first | exact absurd rfl hn | rfl
theorem regWriteIdle_width (s : State) (n : Nat) (v : Word) (hn : n ≠ 0) : (regWriteIdle s n v).width = if n = 3 then v.extractLsb' 0 16 else s.width := by
  rcases n with _ | _ | _ | _ | _ | _ | n <;> first | exact absurd rfl hn | rfl
theorem regWriteIdle_height (s : State) (n : Nat) (v : Word) (hn : n ≠ 0) : (regWriteIdle s n v).height = if n = 4 then v.extractLsb' 0 16 else s.height := by
  rcases n with _ | _ | _ | _ | _ | _ | n <;> first | exact absurd rfl hn | rfl
theorem regWriteIdle_payLen (s : State) (n : Nat) (v : Word) (hn : n ≠ 0) : (regWriteIdle s n v).payLen = if n = 5 then v else s.payLen := by
  rcases n with _ | _ | _ | _ | _ | _ | n <;> first | exact absurd rfl hn | rfl
theorem regWriteIdle_busy (s : State) (n : Nat) (v : Word) (hn : n ≠ 0) : (regWriteIdle s n v).busy = s.busy := by
  rcases n with _ | _ | _ | _ | _ | _ | n <;> first | exact absurd rfl hn | rfl
theorem regWriteIdle_done (s : State) (n : Nat) (v : Word) (hn : n ≠ 0) : (regWriteIdle s n v).done = s.done := by
  rcases n with _ | _ | _ | _ | _ | _ | n <;> first | exact absurd rfl hn | rfl
theorem regWriteIdle_err (s : State) (n : Nat) (v : Word) (hn : n ≠ 0) : (regWriteIdle s n v).err = s.err := by
  rcases n with _ | _ | _ | _ | _ | _ | n <;> first | exact absurd rfl hn | rfl
theorem regWriteIdle_result (s : State) (n : Nat) (v : Word) (hn : n ≠ 0) : (regWriteIdle s n v).result = s.result := by
  rcases n with _ | _ | _ | _ | _ | _ | n <;> first | exact absurd rfl hn | rfl
theorem regWriteIdle_op (s : State) (n : Nat) (v : Word) (hn : n ≠ 0) : (regWriteIdle s n v).op = s.op := by
  rcases n with _ | _ | _ | _ | _ | _ | n <;> first | exact absurd rfl hn | rfl
theorem regWriteIdle_pix (s : State) (n : Nat) (v : Word) (hn : n ≠ 0) : (regWriteIdle s n v).pix = s.pix := by
  rcases n with _ | _ | _ | _ | _ | _ | n <;> first | exact absurd rfl hn | rfl
theorem regWriteIdle_pay (s : State) (n : Nat) (v : Word) (hn : n ≠ 0) : (regWriteIdle s n v).pay = s.pay := by
  rcases n with _ | _ | _ | _ | _ | _ | n <;> first | exact absurd rfl hn | rfl
theorem regWriteIdle_script (s : State) (n : Nat) (v : Word) (hn : n ≠ 0) : (regWriteIdle s n v).script = s.script := by
  rcases n with _ | _ | _ | _ | _ | _ | n <;> first | exact absurd rfl hn | rfl
theorem regWriteIdle_turns (s : State) (n : Nat) (v : Word) (hn : n ≠ 0) : (regWriteIdle s n v).turns = s.turns := by
  rcases n with _ | _ | _ | _ | _ | _ | n <;> first | exact absurd rfl hn | rfl
theorem regWriteIdle_seen (s : State) (n : Nat) (v : Word) (hn : n ≠ 0) : (regWriteIdle s n v).seen = s.seen := by
  rcases n with _ | _ | _ | _ | _ | _ | n <;> first | exact absurd rfl hn | rfl
theorem regWriteIdle_pixPop (s : State) (n : Nat) (v : Word) (hn : n ≠ 0) : (regWriteIdle s n v).pixPop = s.pixPop := by
  rcases n with _ | _ | _ | _ | _ | _ | n <;> first | exact absurd rfl hn | rfl
theorem regWriteIdle_payPop (s : State) (n : Nat) (v : Word) (hn : n ≠ 0) : (regWriteIdle s n v).payPop = s.payPop := by
  rcases n with _ | _ | _ | _ | _ | _ | n <;> first | exact absurd rfl hn | rfl
theorem regWriteIdle_epoch (s : State) (n : Nat) (v : Word) (hn : n ≠ 0) : (regWriteIdle s n v).epoch = s.epoch := by
  rcases n with _ | _ | _ | _ | _ | _ | n <;> first | exact absurd rfl hn | rfl
theorem regWriteIdle_draws (s : State) (n : Nat) (v : Word) (hn : n ≠ 0) : (regWriteIdle s n v).draws = s.draws := by
  rcases n with _ | _ | _ | _ | _ | _ | n <;> first | exact absurd rfl hn | rfl

/-! ### Acceptance of a legal word -/

theorem issue_ok_alpha (s : State) (v : Word) (i : Instr) (h : decode v = .ok i) : (issue s v).alpha = s.alpha := by simp [issue, h]
theorem issue_ok_width (s : State) (v : Word) (i : Instr) (h : decode v = .ok i) : (issue s v).width = s.width := by simp [issue, h]
theorem issue_ok_height (s : State) (v : Word) (i : Instr) (h : decode v = .ok i) : (issue s v).height = s.height := by simp [issue, h]
theorem issue_ok_payLen (s : State) (v : Word) (i : Instr) (h : decode v = .ok i) : (issue s v).payLen = s.payLen := by simp [issue, h]
theorem issue_ok_busy (s : State) (v : Word) (i : Instr) (h : decode v = .ok i) : (issue s v).busy = true := by simp [issue, h]
theorem issue_ok_done (s : State) (v : Word) (i : Instr) (h : decode v = .ok i) : (issue s v).done = false := by simp [issue, h]
theorem issue_ok_err (s : State) (v : Word) (i : Instr) (h : decode v = .ok i) : (issue s v).err = .none := by simp [issue, h]
theorem issue_ok_result (s : State) (v : Word) (i : Instr) (h : decode v = .ok i) : (issue s v).result = 0 := by simp [issue, h]
theorem issue_ok_op (s : State) (v : Word) (i : Instr) (h : decode v = .ok i) : (issue s v).op = v.extractLsb' 0 2 := by simp [issue, h]
theorem issue_ok_pix (s : State) (v : Word) (i : Instr) (h : decode v = .ok i) : (issue s v).pix = s.pix := by simp [issue, h]
theorem issue_ok_pay (s : State) (v : Word) (i : Instr) (h : decode v = .ok i) : (issue s v).pay = s.pay := by simp [issue, h]
theorem issue_ok_script (s : State) (v : Word) (i : Instr) (h : decode v = .ok i) : (issue s v).script = s.script := by simp [issue, h]
theorem issue_ok_turns (s : State) (v : Word) (i : Instr) (h : decode v = .ok i) : (issue s v).turns = s.turns := by simp [issue, h]
theorem issue_ok_seen (s : State) (v : Word) (i : Instr) (h : decode v = .ok i) : (issue s v).seen = s.seen := by simp [issue, h]
theorem issue_ok_pixPop (s : State) (v : Word) (i : Instr) (h : decode v = .ok i) : (issue s v).pixPop = s.pixPop := by simp [issue, h]
theorem issue_ok_payPop (s : State) (v : Word) (i : Instr) (h : decode v = .ok i) : (issue s v).payPop = s.payPop := by simp [issue, h]
theorem issue_ok_epoch (s : State) (v : Word) (i : Instr) (h : decode v = .ok i) : (issue s v).epoch = s.epoch := by simp [issue, h]
theorem issue_ok_draws (s : State) (v : Word) (i : Instr) (h : decode v = .ok i) : (issue s v).draws = s.draws := by simp [issue, h]

/-! ### An illegal word -/

/-- An illegal word is reported in the step of its write (R105). -/
@[simp] theorem issue_error (s : State) (v : Word) (r : Reject) (h : decode v = .error r) :
    issue s v = finish s .illegalCommand 0 := by
  simp [issue, h]

end Sys2Proof.Machine
end

