-- ==== Sys2Proof/Laws/Memory.lean ====
section
/-! SUPPORT. The laws of a byte memory: read after write, and the canonical form that every operation keeps. -/

namespace Sys2Proof.Machine

namespace Memory

@[simp] theorem byteAt?_nil (a : Nat) : byteAt? [] a = none := rfl

theorem byteAt?_cons (k : Nat) (v : Byte) (m : Memory) (a : Nat) :
    byteAt? ((k, v) :: m) a = if k = a then some v else byteAt? m a := rfl

/-- Read after write: the byte written at its address, and the old byte everywhere else. -/
@[simp] theorem byteAt?_put (m : Memory) (a b : Nat) (v : Byte) :
    byteAt? (put m a v) b = if a = b then some v else byteAt? m b := by
  induction m with
  | nil => simp [put, byteAt?_cons]
  | cons c m ih =>
    obtain ⟨k, w⟩ := c
    by_cases h₁ : a < k
    · simp [put, h₁, byteAt?_cons]
    · by_cases h₂ : a = k
      · subst h₂
        by_cases h₃ : a = b <;> simp [put, byteAt?_cons, h₃]
      · simp only [put, h₁, h₂, if_false, byteAt?_cons, ih]
        by_cases h₃ : k = b
        · subst h₃; simp [h₂]
        · simp [h₃]

/-- Every address listed after a write was listed before, or is the one written. -/
theorem mem_put (m : Memory) (a : Nat) (v : Byte) (c : Host.Cell) (h : c ∈ put m a v) :
    c = (a, v) ∨ c ∈ m := by
  induction m with
  | nil => simpa [put] using h
  | cons d m ih =>
    obtain ⟨k, w⟩ := d
    unfold put at h
    split at h
    · simpa using h
    · split at h
      · rcases List.mem_cons.1 h with h | h
        · exact .inl h
        · exact .inr (List.mem_cons_of_mem _ h)
      · rcases List.mem_cons.1 h with h | h
        · exact .inr (h ▸ List.mem_cons_self)
        · exact (ih h).imp_right (List.mem_cons_of_mem _)

/-- A write keeps the addresses strictly rising. -/
theorem pairwise_put (m : Memory) (a : Nat) (v : Byte)
    (h : m.Pairwise (fun x y => x.1 < y.1)) : (put m a v).Pairwise (fun x y => x.1 < y.1) := by
  induction m with
  | nil => simp [put]
  | cons c m ih =>
    obtain ⟨k, w⟩ := c
    rw [List.pairwise_cons] at h
    obtain ⟨hk, hm⟩ := h
    unfold put
    split
    · rename_i hlt
      refine List.pairwise_cons.2 ⟨fun d hd => ?_, List.pairwise_cons.2 ⟨hk, hm⟩⟩
      rcases List.mem_cons.1 hd with rfl | hd
      · exact hlt
      · exact hlt.trans (hk d hd)
    · split
      · rename_i heq
        subst heq
        exact List.pairwise_cons.2 ⟨hk, hm⟩
      · rename_i hge hne
        refine List.pairwise_cons.2 ⟨fun d hd => ?_, ih hm⟩
        rcases mem_put m a v d hd with rfl | hd
        · show k < a; omega
        · exact hk d hd

/-- A write at a 32-bit address keeps the canonical form. -/
theorem wf_put (m : Memory) (a : Nat) (v : Byte) (h : m.wf) (ha : a < 2 ^ 32) : (put m a v).wf := by
  refine ⟨pairwise_put m a v h.1, fun c hc => ?_⟩
  rcases mem_put m a v c hc with rfl | hc
  · exact ha
  · exact h.2 c hc

@[simp] theorem wf_nil : wf [] := by simp [wf]

@[simp] theorem read_nil (u : Nat → Byte) (a : Nat) : read u [] a = u a := rfl

/-- Read after write, in the reading that takes an unwritten byte to be the one it held at power-on. -/
@[simp] theorem read_put (u : Nat → Byte) (m : Memory) (a b : Nat) (v : Byte) :
    read u (put m a v) b = if a = b then v else read u m b := by
  unfold read
  rw [byteAt?_put]
  split <;> rfl

theorem length_readList (u : Nat → Byte) (m : Memory) (a n : Nat) : (readList u m a n).length = n := by
  induction n generalizing a with
  | zero => rfl
  | succ n ih => simp [readList, ih]

theorem getElem?_readList (u : Nat → Byte) (m : Memory) (a n i : Nat) :
    (readList u m a n)[i]? = if i < n then some (read u m (a + i)) else none := by
  induction n generalizing a i with
  | zero => simp [readList]
  | succ n ih =>
    cases i with
    | zero => simp [readList]
    | succ i => simp [readList, ih, Nat.add_assoc, Nat.add_comm 1 i]

/-- A list read from memory, in the library's terms. -/
theorem readList_eq_map (u : Nat → Byte) (m : Memory) (a n : Nat) :
    readList u m a n = (List.range n).map (fun i => read u m (a + i)) := by
  apply List.ext_getElem?
  intro i
  rw [getElem?_readList, List.getElem?_map]
  by_cases h : i < n <;> simp [h]

end Memory

/-- Read after write through a state (R38, R63). -/
theorem State.byte_putByte (s : State) (sp sp' : Space) (a b : Nat) (v : Byte) :
    (s.putByte sp a v).byte sp' b = if sp = sp' ∧ a = b then v else s.byte sp' b := by
  cases sp <;> cases sp' <;> simp [State.byte, State.putByte, State.mem]

/-! A state's bytes after one of its memories has been replaced whole. -/

@[simp] theorem State.byte_setPix_pix (s : State) (m : Memory) (a : Nat) :
    ({ s with pix := m } : State).byte .pix a = m.read (Config.powerOnByte s.epoch .pix) a := rfl

@[simp] theorem State.byte_setPix_pay (s : State) (m : Memory) (a : Nat) :
    ({ s with pix := m } : State).byte .pay a = s.byte .pay a := rfl

@[simp] theorem State.byte_setPay_pay (s : State) (m : Memory) (a : Nat) :
    ({ s with pay := m } : State).byte .pay a = m.read (Config.powerOnByte s.epoch .pay) a := rfl

@[simp] theorem State.byte_setPay_pix (s : State) (m : Memory) (a : Nat) :
    ({ s with pay := m } : State).byte .pix a = s.byte .pix a := rfl

theorem State.byte_pix (s : State) (a : Nat) :
    s.byte .pix a = s.pix.read (Config.powerOnByte s.epoch .pix) a := rfl

theorem State.byte_pay (s : State) (a : Nat) :
    s.byte .pay a = s.pay.read (Config.powerOnByte s.epoch .pay) a := rfl

@[simp] theorem State.byte_finish (s : State) (e : ErrKind) (r : Word) (sp : Space) (a : Nat) :
    (finish s e r).byte sp a = s.byte sp a := by cases sp <;> rfl

@[simp] theorem State.byte_clearRegisters (s : State) (sp : Space) (a : Nat) :
    (clearRegisters s).byte sp a = s.byte sp a := by cases sp <;> rfl

end Sys2Proof.Machine
end

