-- ==== Sys2Proof/Laws/Operands.lean ====
section
/-! SUPPORT. The operands: slot addresses are injective and rise (R33), nothing wraps (R5), and when a command stays
within the populated memory. -/

namespace Sys2Proof.Machine

theorem bytesPerPixel_cases (al : Bool) :
    (al = false ∧ bytesPerPixel al = 3) ∨ (al = true ∧ bytesPerPixel al = 4) := by
  cases al <;> simp [bytesPerPixel]

/-- Slot addresses rise with the slot. -/
theorem slotAddr_lt_slotAddr (al : Bool) {m n : Nat} (h : m < n) : slotAddr al m < slotAddr al n := by
  unfold slotAddr
  rcases bytesPerPixel_cases al with ⟨-, hb⟩ | ⟨-, hb⟩ <;> rw [hb] <;> omega

theorem slotAddr_le_slotAddr (al : Bool) {m n : Nat} (h : m ≤ n) : slotAddr al m ≤ slotAddr al n := by
  rcases Nat.lt_or_eq_of_le h with h | rfl
  · exact (slotAddr_lt_slotAddr al h).le
  · exact le_rfl

/-- `slot_addr` is injective (R83). -/
theorem slotAddr_injective (al : Bool) {m n : Nat} (h : slotAddr al m = slotAddr al n) : m = n := by
  rcases Nat.lt_trichotomy m n with hlt | rfl | hlt
  · have := slotAddr_lt_slotAddr al hlt; omega
  · rfl
  · have := slotAddr_lt_slotAddr al hlt; omega

theorem dimsBad_eq_false_iff (s : State) : dimsBad s = false ↔ legalGrid s := by
  simp [dimsBad, legalGrid]

theorem gridWidth_lt (s : State) : gridWidth s < 32768 := by
  have := BitVec.toInt_lt (x := s.width)
  simpa [gridWidth] using this

theorem gridHeight_lt (s : State) : gridHeight s < 32768 := by
  have := BitVec.toInt_lt (x := s.height)
  simpa [gridHeight] using this

/-- `w * h <= 1073676289` for a legal grid (R5). -/
theorem pixels_le (s : State) (h : legalGrid s) : (gridWidth s * gridHeight s).toNat ≤ 1073676289 := by
  have h₁ := gridWidth_lt s
  have h₂ := gridHeight_lt s
  obtain ⟨h₃, h₄⟩ := h
  have : gridWidth s * gridHeight s ≤ 32767 * 32767 :=
    mul_le_mul (by omega) (by omega) (by omega) (by omega)
  omega

/-- `T` as three slots a pixel. -/
theorem slotCount_eq (s : State) : slotCount s = (gridWidth s * gridHeight s).toNat * 3 := by
  unfold slotCount
  omega

/-- `T <= 3221028867 < 2^32` for a legal grid (R5). -/
theorem slotCount_le (s : State) (h : legalGrid s) : slotCount s ≤ 3221028867 := by
  have := pixels_le s h
  rw [slotCount_eq]
  omega

/-- Every slot of a grid lies inside the grid's bytes (R33, R34). -/
theorem slotAddr_lt_gridBytes (s : State) {n : Nat} (h : n < slotCount s) :
    slotAddr s.alpha n < gridBytes s := by
  rw [slotCount_eq] at h
  unfold slotAddr gridBytes
  rcases bytesPerPixel_cases s.alpha with ⟨-, hb⟩ | ⟨-, hb⟩ <;> rw [hb] <;> omega

/-- No slot address of a legal grid wraps (R33). -/
theorem slotAddr_lt_word (s : State) (hg : legalGrid s) {n : Nat} (h : n < slotCount s) :
    slotAddr s.alpha n < 2 ^ 32 := by
  have h₁ := pixels_le s hg
  rw [slotCount_eq] at h
  unfold slotAddr
  rcases bytesPerPixel_cases s.alpha with ⟨-, hb⟩ | ⟨-, hb⟩ <;> rw [hb] <;> omega

/-- When the first `n` slots are populated. -/
theorem slotsPopulated_iff (s : State) (n : Nat) :
    slotsPopulated s n = true ↔ ∀ i < n, slotAddr s.alpha i < s.pixPop := by
  cases n with
  | zero => simp [slotsPopulated]
  | succ n =>
    simp only [slotsPopulated, Nat.add_one_ne_zero, beq_iff_eq, Bool.or_eq_true, decide_eq_true_eq,
      Nat.add_sub_cancel, false_or]
    exact ⟨fun h i hi => (slotAddr_le_slotAddr _ (by omega)).trans_lt h, fun h => h n (by omega)⟩

/-- When a command stays within the populated memory (R40). -/
theorem unpopulatedSpace_eq_none_iff (s : State) (n k : Nat) :
    unpopulatedSpace s n k = none ↔ (∀ i < n, slotAddr s.alpha i < s.pixPop) ∧ k ≤ s.payPop := by
  rw [← slotsPopulated_iff]
  unfold unpopulatedSpace payPopulated
  cases slotsPopulated s n <;> simp

/-- A grid within `PIX_POP` has all its slots populated. -/
theorem slots_populated_of_grid (s : State) (h : gridBytes s ≤ s.pixPop) {n : Nat} (hn : n ≤ slotCount s) :
    ∀ i < n, slotAddr s.alpha i < s.pixPop :=
  fun _ hi => (slotAddr_lt_gridBytes s (hi.trans_le hn)).trans_le h

end Sys2Proof.Machine
end

