-- ==== Sys2Proof/Laws/Stream.lean ====
section
/-! SUPPORT. The bit streams: what the channel update does to each bit (R80), and which slot each bit of the LSB byte
stream comes from (R86). -/

namespace Sys2Proof.Machine

@[simp] theorem bitByte_getLsbD (b : Bool) (i : Nat) : (bitByte b).getLsbD i = (decide (i = 0) && b) := by
  cases b
  · simp [bitByte]
  · rcases i with _ | i
    · rfl
    · simp [bitByte, BitVec.getLsbD_one]

/-- The channel update keeps bits 7 to 1 and sets bit 0 (R38, R80). -/
theorem setLsb_getLsbD (old : Byte) (b : Bool) (i : Nat) (hi : i < 8) :
    (setLsb old b).getLsbD i = if i = 0 then b else old.getLsbD i := by
  have mask : ∀ i < 8, (0xFE : Byte).getLsbD i = !decide (i = 0) := by decide
  rw [setLsb, BitVec.getLsbD_or, BitVec.getLsbD_and, bitByte_getLsbD, mask i hi]
  by_cases h : i = 0 <;> simp [h]

@[simp] theorem setLsb_lsb (old : Byte) (b : Bool) : (setLsb old b).getLsbD 0 = b := by
  simpa using setLsb_getLsbD old b 0 (by omega)

/-- The second of two channel updates decides (R84). -/
theorem setLsb_setLsb (old : Byte) (b c : Bool) : setLsb (setLsb old b) c = setLsb old c := by
  apply BitVec.eq_of_getLsbD_eq
  intro i hi
  rw [setLsb_getLsbD _ _ _ hi, setLsb_getLsbD _ _ _ hi, setLsb_getLsbD _ _ _ hi]
  split <;> rfl

theorem shiftIn_getLsbD (acc : Byte) (b : Bool) (i : Nat) (hi : i < 8) :
    (shiftIn acc b).getLsbD i = if i = 0 then b else acc.getLsbD (i - 1) := by
  rw [shiftIn, BitVec.getLsbD_or, BitVec.getLsbD_shiftLeft, bitByte_getLsbD]
  rcases i with _ | i
  · simp
  · simp only [Nat.add_one_ne_zero, decide_false, Bool.false_and, Bool.or_false, if_false, Nat.add_sub_cancel]
    simp [show i + 1 < 8 from hi]

/-- Bit `i` of the accumulator is the bit that went in `i` slots before the last (R87). -/
theorem gather_getLsbD (s : State) (first n i : Nat) (hi : i < 8) (hn : i < n) :
    (gather s first n).getLsbD i = slotBit s (first + (n - 1 - i)) := by
  induction n generalizing i with
  | zero => omega
  | succ n ih =>
    rw [gather, shiftIn_getLsbD _ _ _ hi]
    rcases i with _ | i
    · simp
    · rw [if_neg (by omega), Nat.add_sub_cancel, ih i (by omega) (by omega)]
      congr 2
      omega

/-- Bit `7 - j` of `b_k` is bit 0 of slot `8k + j` (R86). -/
theorem lsbByte_getLsbD (s : State) (k j : Nat) (hj : j < 8) :
    (lsbByte s k).getLsbD (7 - j) = slotBit s (8 * k + j) := by
  rw [lsbByte, gather_getLsbD s _ _ _ (by omega) (by omega)]
  congr 2
  omega

/-- A byte of the stream is settled by its eight slots. -/
theorem eq_lsbByte_of_bits (s : State) (k : Nat) (v : Byte)
    (h : ∀ j < 8, v.getLsbD (7 - j) = slotBit s (8 * k + j)) : v = lsbByte s k := by
  apply BitVec.eq_of_getLsbD_eq
  intro i hi
  have h₁ := h (7 - i) (by omega)
  have h₂ := lsbByte_getLsbD s k (7 - i) (by omega)
  rw [show 7 - (7 - i) = i by omega] at h₁ h₂
  rw [h₁, h₂]

/-- Two states whose first `8 (k+1)` slots yield the same bits have the same byte `k`. -/
theorem lsbByte_congr {s t : State} {k : Nat}
    (h : ∀ j < 8, slotBit s (8 * k + j) = slotBit t (8 * k + j)) : lsbByte s k = lsbByte t k :=
  eq_lsbByte_of_bits t k _ fun j hj => (lsbByte_getLsbD s k j hj).trans (h j hj)

@[simp] theorem delim_length : delim.length = delimLength := rfl

/-- The delimiter's bytes, by index. -/
theorem delim_getElem? (i : Nat) : delim[i]? = if i < delimLength then some (delimByte i) else none := by
  split
  · rename_i h
    simp [delimByte, List.getD_eq_getElem?_getD, List.getElem?_eq_getElem (show i < delim.length from h)]
  · rename_i h
    exact List.getElem?_eq_none (by simpa using Nat.le_of_not_lt h)

end Sys2Proof.Machine
end

