-- ==== Sys2Proof/Laws/Embed.lean ====
section
/-! SUPPORT. EMBED's slot loop: what it leaves at every address, and that it keeps the canonical form. -/

namespace Sys2Proof.Machine

/-- A slot of the loop holds its updated byte, if its address is one that lands, and else its old one (R80, R121). -/
theorem writeSlots_read_slot (s : State) (lands : Nat → Bool) (n i : Nat) (hi : i < n) :
    (writeSlots s lands n).read (Config.powerOnByte s.epoch .pix) (slotAddr s.alpha i) =
      if lands (slotAddr s.alpha i) then setLsb (s.byte .pix (slotAddr s.alpha i)) (streamBit s i)
      else s.byte .pix (slotAddr s.alpha i) := by
  suffices h : ∀ n, (∀ i, i < n → (writeSlots s lands n).read (Config.powerOnByte s.epoch .pix) (slotAddr s.alpha i) =
        if lands (slotAddr s.alpha i) then setLsb (s.byte .pix (slotAddr s.alpha i)) (streamBit s i)
        else s.byte .pix (slotAddr s.alpha i)) ∧
      ∀ a, (∀ i, i < n → a ≠ slotAddr s.alpha i) →
        (writeSlots s lands n).read (Config.powerOnByte s.epoch .pix) a = s.byte .pix a from (h n).1 i hi
  intro n
  induction n with
  | zero => exact ⟨fun i hi => by omega, fun a _ => rfl⟩
  | succ n ih =>
    obtain ⟨ih₁, ih₂⟩ := ih
    have hold := ih₂ (slotAddr s.alpha n) fun i hi h => by
      have := slotAddr_injective _ h; omega
    refine ⟨fun i hi => ?_, fun a ha => ?_⟩
    · by_cases hin : i = n
      · subst hin
        cases hl : lands (slotAddr s.alpha i) <;> simp [writeSlots, hl, hold]
      · have hne : slotAddr s.alpha n ≠ slotAddr s.alpha i := fun h => hin (slotAddr_injective _ h).symm
        rw [← ih₁ i (by omega)]
        cases hl : lands (slotAddr s.alpha n) <;> simp [writeSlots, hl, hne]
    · have hne : slotAddr s.alpha n ≠ a := fun h => ha n (by omega) h.symm
      rw [← ih₂ a fun i hi => ha i (by omega)]
      cases hl : lands (slotAddr s.alpha n) <;> simp [writeSlots, hl, hne]

/-- An address that is no slot of the loop keeps its byte (R81, R83). -/
theorem writeSlots_read_other (s : State) (lands : Nat → Bool) (n a : Nat)
    (ha : ∀ i < n, a ≠ slotAddr s.alpha i) :
    (writeSlots s lands n).read (Config.powerOnByte s.epoch .pix) a = s.byte .pix a := by
  induction n with
  | zero => rfl
  | succ n ih =>
    have hne : slotAddr s.alpha n ≠ a := fun h => ha n (by omega) h.symm
    rw [← ih fun i hi => ha i (by omega)]
    cases hl : lands (slotAddr s.alpha n) <;> simp [writeSlots, hl, hne]

/-- The loop keeps the canonical form, its slots being those of a legal grid. -/
theorem writeSlots_wf (s : State) (lands : Nat → Bool) (n : Nat) (h : s.pix.wf) (hg : legalGrid s)
    (hn : n ≤ slotCount s) : (writeSlots s lands n).wf := by
  induction n with
  | zero => exact h
  | succ n ih =>
    have := Memory.wf_put _ (slotAddr s.alpha n)
      (setLsb ((writeSlots s lands n).read (Config.powerOnByte s.epoch .pix) (slotAddr s.alpha n)) (streamBit s n))
      (ih (by omega)) (slotAddr_lt_word s hg (by omega))
    unfold writeSlots
    cases hl : lands (slotAddr s.alpha n)
    · simpa [hl] using ih (by omega)
    · simpa [hl] using this

/-- Everything EMBED can do: the four ends of the command (R75 to R80). -/
theorem execEmbed_cases (s : State) :
    (dimsBad s = true ∧ execEmbed s = .next (finish s .invalidDimensions 0)) ∨
    (legalGrid s ∧ slotCount s < bitsNeeded s ∧ execEmbed s = .next (finish s .capacityExceeded 0)) ∨
    (legalGrid s ∧ bitsNeeded s ≤ slotCount s ∧
      ∃ sp, unpopulatedSpace s (bitsNeeded s) (payloadLength s) = some sp ∧
        execEmbed s = .refused (.commandUnpopulated sp)) ∨
    (legalGrid s ∧ bitsNeeded s ≤ slotCount s ∧
      unpopulatedSpace s (bitsNeeded s) (payloadLength s) = none ∧
      execEmbed s = .next (finish { s with pix := writeSlots s (fun _ => true) (bitsNeeded s) } .none
        (BitVec.ofNat 32 (bitsNeeded s)))) := by
  unfold execEmbed
  cases hd : dimsBad s
  · rw [dimsBad_eq_false_iff] at hd
    by_cases hc : slotCount s < bitsNeeded s
    · simp [hc, hd]
    · have := Nat.le_of_not_lt hc
      cases hu : unpopulatedSpace s (bitsNeeded s) (payloadLength s) <;> simp [hc, hd, this]
  · simp

end Sys2Proof.Machine
end

