-- ==== Sys2Proof/Laws/Extract.lean ====
section
/-! SUPPORT. EXTRACT's slot loop equals what rules R89 to R91 say of it: it stops at the least byte that passes the test
of rule R89, and leaves the bytes completed so far in PAY. -/

namespace Sys2Proof.Machine

/-- The first `n` bytes of the LSB byte stream stored from PAY address 0 on. -/
abbrev storeBytes (s : State) (n : Nat) : Memory := writeBytes s (fun _ => true) n

/-- A byte of the stream that was stored, where it landed, reads back; every other byte is the old one (R91, R121). -/
theorem writeBytes_read (s : State) (lands : Nat → Bool) (n a : Nat) :
    (writeBytes s lands n).read (Config.powerOnByte s.epoch .pay) a =
      if a < n ∧ lands a = true then lsbByte s a else s.byte .pay a := by
  induction n with
  | zero => simp [writeBytes, State.byte, State.mem]
  | succ n ih =>
    unfold writeBytes
    by_cases hl : lands n = true
    · rw [if_pos hl, Memory.read_put, ih]
      by_cases ha : n = a
      · subst ha; simp [hl]
      · have : a < n + 1 ↔ a < n := by omega
        simp [ha, this]
    · rw [if_neg hl, ih]
      by_cases ha : n = a
      · subst ha; simp [hl]
      · have : a < n + 1 ↔ a < n := by omega
        simp [this]

theorem storeBytes_read (s : State) (n a : Nat) :
    (storeBytes s n).read (Config.powerOnByte s.epoch .pay) a = if a < n then lsbByte s a else s.byte .pay a := by
  simp [storeBytes, writeBytes_read]

/-- Storing the stream keeps the canonical form. -/
theorem writeBytes_wf (s : State) (lands : Nat → Bool) (n : Nat) (h : s.pay.wf) (hn : n ≤ 2 ^ 32) :
    (writeBytes s lands n).wf := by
  induction n with
  | zero => exact h
  | succ n ih =>
    unfold writeBytes
    split
    · exact Memory.wf_put _ _ _ (ih (by omega)) (by omega)
    · exact ih (by omega)

/-- The comparison of nine bytes in PAY is the test of rule R89. -/
theorem window_eq_delim_iff (s : State) (k : Nat) :
    (8 ≤ k ∧ (storeBytes s (k + 1)).readList (Config.powerOnByte s.epoch .pay) (k - 8) 9 = delim) ↔ matchAt s k := by
  unfold matchAt
  refine and_congr_right fun hk => ?_
  have hget : ∀ i < 9, ((storeBytes s (k + 1)).readList (Config.powerOnByte s.epoch .pay) (k - 8) 9)[i]?
      = some (lsbByte s (k - 8 + i)) := fun i hi => by
    rw [Memory.getElem?_readList, if_pos hi, storeBytes_read, if_pos (by omega)]
  constructor
  · intro h i hi
    have := hget i hi
    rw [h, delim_getElem?, if_pos hi] at this
    exact (Option.some.inj this).symm
  · intro h
    apply List.ext_getElem?
    intro i
    by_cases hi : i < 9
    · rw [hget i hi, h i hi, delim_getElem?, if_pos (show i < delimLength from hi)]
    · rw [List.getElem?_eq_none (by rw [Memory.length_readList]; omega),
        List.getElem?_eq_none (by rw [delim_length]; exact Nat.le_of_not_lt hi)]

/-- The loop from slot `n` on, its accumulator and its buffer being what the slots before `n` have made them. -/
theorem scanFrom_spec (s : State) (fuel n : Nat) (acc : Byte) (pay : Memory)
    (hacc : ∀ j < n % 8, acc.getLsbD j = slotBit s (n - 1 - j))
    (hpay : pay = storeBytes s (n / 8))
    (hno : ∀ k < n / 8, ¬ matchAt s k) :
    (∃ k, n / 8 ≤ k ∧ k < (n + fuel) / 8 ∧ matchAt s k ∧ (∀ j < k, ¬ matchAt s j) ∧
      scanFrom s fuel n acc pay = .found (k - 8) (storeBytes s (k + 1))) ∨
    ((∀ k < (n + fuel) / 8, ¬ matchAt s k) ∧
      scanFrom s fuel n acc pay = .exhausted (storeBytes s ((n + fuel) / 8))) := by
  induction fuel generalizing n acc pay with
  | zero => exact .inr ⟨by simpa using hno, by simp [scanFrom, hpay]⟩
  | succ fuel ih =>
    have hacc' : ∀ j < n % 8 + 1, (shiftIn acc (slotBit s n)).getLsbD j = slotBit s (n - j) := by
      intro j hj
      rw [shiftIn_getLsbD _ _ _ (by omega)]
      rcases j with _ | j
      · simp
      · rw [if_neg (by omega), Nat.add_sub_cancel, hacc j (by omega)]
        congr 1
        omega
    by_cases h7 : n % 8 = 7
    · have hbyte : shiftIn acc (slotBit s n) = lsbByte s (n / 8) := by
        apply eq_lsbByte_of_bits
        intro j hj
        rw [hacc' _ (by omega)]
        congr 1
        omega
      have hput : pay.put (n / 8) (shiftIn acc (slotBit s n)) = storeBytes s (n / 8 + 1) := by
        rw [hpay, hbyte]; simp [storeBytes, writeBytes]
      by_cases hm : matchAt s (n / 8)
      · refine .inl ⟨n / 8, le_rfl, by omega, hm, hno, ?_⟩
        simp only [scanFrom, if_pos h7, hput]
        rw [if_pos ((window_eq_delim_iff s (n / 8)).2 hm)]
      · have hstep : scanFrom s (fuel + 1) n acc pay =
            scanFrom s fuel (n + 1) (shiftIn acc (slotBit s n)) (storeBytes s (n / 8 + 1)) := by
          simp only [scanFrom, if_pos h7, hput]
          rw [if_neg (fun h => hm ((window_eq_delim_iff s (n / 8)).1 h))]
        have hdiv : (n + 1) / 8 = n / 8 + 1 := by omega
        have hsum : n + 1 + fuel = n + (fuel + 1) := by omega
        have := ih (n + 1) (shiftIn acc (slotBit s n)) (storeBytes s (n / 8 + 1))
          (fun j hj => by omega) (by rw [hdiv])
          (fun k hk => by
            rcases Nat.lt_or_eq_of_le (show k ≤ n / 8 by omega) with h | rfl
            · exact hno k h
            · exact hm)
        rw [hdiv, hsum, ← hstep] at this
        refine this.imp (fun ⟨k, h₁, h⟩ => ⟨k, by omega, h⟩) id
    · have hstep : scanFrom s (fuel + 1) n acc pay =
          scanFrom s fuel (n + 1) (shiftIn acc (slotBit s n)) pay := by
        simp only [scanFrom, if_neg h7]
      have hdiv : (n + 1) / 8 = n / 8 := by omega
      have hsum : n + 1 + fuel = n + (fuel + 1) := by omega
      have := ih (n + 1) (shiftIn acc (slotBit s n)) pay
        (fun j hj => by rw [hacc' j (by omega)]; congr 1)
        (by rw [hdiv, hpay]) (by rw [hdiv]; exact hno)
      rwa [hdiv, hsum, ← hstep] at this

/-- The whole scan: found at `k*` (R89, R90), or exhausted (R94); PAY as rule R91 says. -/
theorem scanGrid_cases (s : State) :
    (∃ k, stopsAt s k ∧ scanGrid s = .found (k - 8) (storeBytes s (k + 1))) ∨
    ((∀ k < wholeBytes s, ¬ matchAt s k) ∧ scanGrid s = .exhausted (storeBytes s (wholeBytes s))) := by
  have := scanFrom_spec s (slotCount s) 0 0 s.pay (by simp) rfl (by simp)
  simp only [Nat.zero_add, Nat.zero_div] at this
  refine this.imp ?_ ?_
  · rintro ⟨k, -, hk, hm, hno, h⟩
    exact ⟨k, ⟨hk, hm, hno⟩, h⟩
  · rintro ⟨hno, h⟩
    exact ⟨hno, h⟩

/-- The place where a scan stops is unique. -/
theorem stopsAt_unique {s : State} {j k : Nat} (hj : stopsAt s j) (hk : stopsAt s k) : j = k := by
  rcases Nat.lt_trichotomy j k with h | h | h
  · exact absurd hj.2.1 (hk.2.2 j h)
  · exact h
  · exact absurd hk.2.1 (hj.2.2 k h)

theorem scanGrid_found {s : State} {k : Nat} (h : stopsAt s k) :
    scanGrid s = .found (k - 8) (storeBytes s (k + 1)) := by
  rcases scanGrid_cases s with ⟨j, hj, e⟩ | ⟨hno, -⟩
  · rw [e, stopsAt_unique hj h]
  · exact absurd h.2.1 (hno k h.1)

theorem scanGrid_exhausted {s : State} (h : ∀ k < wholeBytes s, ¬ matchAt s k) :
    scanGrid s = .exhausted (storeBytes s (wholeBytes s)) := by
  rcases scanGrid_cases s with ⟨j, hj, -⟩ | ⟨-, e⟩
  · exact absurd hj.2.1 (h j hj.1)
  · exact e

/-- The recovered bytes: the LSB byte stream up to the delimiter (R90). -/
theorem recovered_eq (s : State) (n m : Nat) (h : n ≤ m) :
    (storeBytes s m).readList (Config.powerOnByte s.epoch .pay) 0 n = (List.range n).map (lsbByte s) := by
  rw [Memory.readList_eq_map]
  apply List.map_congr_left
  intro i hi
  rw [List.mem_range] at hi
  rw [Nat.zero_add, storeBytes_read, if_pos (by omega)]

/-- Everything EXTRACT can do: the five ends of the command (R88 to R94, R99). -/
theorem execExtract_cases (s : State) :
    (dimsBad s = true ∧ execExtract s = .next (finish s .invalidDimensions 0)) ∨
    (legalGrid s ∧ ∃ sp, scanUnpopulated s = some sp ∧ execExtract s = .refused (.commandUnpopulated sp)) ∨
    (legalGrid s ∧ scanUnpopulated s = none ∧ ∃ k, stopsAt s k ∧
      utf8Valid ((List.range (k - 8)).map (lsbByte s)) = true ∧
      execExtract s = .next (finish { s with pay := storeBytes s (k + 1) } .none (BitVec.ofNat 32 (k - 8)))) ∨
    (legalGrid s ∧ scanUnpopulated s = none ∧ ∃ k, stopsAt s k ∧
      utf8Valid ((List.range (k - 8)).map (lsbByte s)) = false ∧
      execExtract s = .next (finish { s with pay := storeBytes s (k + 1) } .invalidEncoding 0)) ∨
    (legalGrid s ∧ scanUnpopulated s = none ∧ (∀ k < wholeBytes s, ¬ matchAt s k) ∧
      execExtract s = .next (finish { s with pay := storeBytes s (wholeBytes s) } .noHiddenMessage 0)) := by
  unfold execExtract
  cases hd : dimsBad s
  · rw [dimsBad_eq_false_iff] at hd
    cases hu : scanUnpopulated s
    · rcases scanGrid_cases s with ⟨k, hk, e⟩ | ⟨hno, e⟩
      · have hr := recovered_eq s (k - 8) (k + 1) (by omega)
        cases hv : utf8Valid ((List.range (k - 8)).map (lsbByte s))
        · exact .inr (.inr (.inr (.inl ⟨hd, rfl, k, hk, hv, by simp [e, endScan, hr, hv]⟩)))
        · exact .inr (.inr (.inl ⟨hd, rfl, k, hk, hv, by simp [e, endScan, hr, hv]⟩))
      · exact .inr (.inr (.inr (.inr ⟨hd, rfl, hno, by simp [e, endScan]⟩)))
    · simp [hd]
  · simp

end Sys2Proof.Machine
end

