-- ==== Sys2Proof/Laws/Step.lean ====
section
/-! SUPPORT. What a command, a host action and a step can do, each said once: if it answers a next state, then one of
the cases listed here holds. -/

namespace Sys2Proof.Machine

/-- Everything CAPACITY can do (R70, R71). -/
theorem execCapacity_cases (s : State) :
    (dimsBad s = true ∧ execCapacity s = .next (finish s .invalidDimensions 0)) ∨
    (legalGrid s ∧ execCapacity s = .next (finish s .none (BitVec.ofNat 32 (wholeBytes s)))) := by
  unfold execCapacity
  cases hd : dimsBad s
  · rw [dimsBad_eq_false_iff] at hd
    simp [hd]
  · simp

theorem opInstr_eq_none_iff (op : BitVec 2) : opInstr op = none ↔ op = 0 := by
  revert op; decide

/-- The opcode an accepted word leaves in `OP` stands for the command the word decodes to (R59, R62). -/
theorem opInstr_of_decode {v : Word} {i : Instr} (h : decode v = .ok i) : opInstr (v.extractLsb' 0 2) = some i := by
  unfold decode at h
  split at h
  · rename_i hv; subst hv; cases h; decide
  · split at h
    · rename_i hv; subst hv; cases h; decide
    · split at h
      · rename_i hv; subst hv; cases h; decide
      · cases h

theorem wholeBytes_le (s : State) (h : legalGrid s) : wholeBytes s ≤ 402628608 := by
  have := slotCount_le s h
  unfold wholeBytes
  omega

/-- A command that completes changes `STATUS`, `RESULT` and the memories, and nothing else; an error leaves
`RESULT = 0`; the memories stay canonical; and `RESULT` is at most what rule R5 allows. -/
theorem exec_next {i : Instr} {s t : State} (h : exec i s = .next t) :
    ∃ p q e r, t = finish { s with pix := p, pay := q } e r ∧ (e ≠ .none → r = 0) ∧
      (s.pix.wf → p.wf) ∧ (s.pay.wf → q.wf) ∧ r.toNat ≤ 0xBFFD0003 := by
  cases i with
  | capacity =>
    rcases execCapacity_cases s with ⟨-, e⟩ | ⟨hg, e⟩ <;> rw [exec, e] at h <;> cases h
    · exact ⟨s.pix, s.pay, _, _, rfl, fun _ => rfl, id, id, by decide⟩
    · refine ⟨s.pix, s.pay, _, _, rfl, fun h => absurd rfl h, id, id, ?_⟩
      have := wholeBytes_le s hg
      rw [BitVec.toNat_ofNat, Nat.mod_eq_of_lt (by omega)]
      omega
  | embed =>
    rcases execEmbed_cases s with ⟨-, e⟩ | ⟨-, -, e⟩ | ⟨-, -, sp, -, e⟩ | ⟨hg, hn, -, e⟩ <;> rw [exec, e] at h <;>
      cases h
    · exact ⟨s.pix, s.pay, _, _, rfl, fun _ => rfl, id, id, by decide⟩
    · exact ⟨s.pix, s.pay, _, _, rfl, fun _ => rfl, id, id, by decide⟩
    · refine ⟨_, s.pay, _, _, rfl, fun h => absurd rfl h, fun hw => writeSlots_wf s _ _ hw hg hn, id, ?_⟩
      have := slotCount_le s hg
      rw [BitVec.toNat_ofNat, Nat.mod_eq_of_lt (by omega)]
      omega
  | extract =>
    rcases execExtract_cases s with ⟨-, e⟩ | ⟨-, sp, -, e⟩ | ⟨hg, -, k, hk, -, e⟩ | ⟨hg, -, k, hk, -, e⟩ |
        ⟨hg, -, -, e⟩ <;> rw [exec, e] at h <;> cases h
    · exact ⟨s.pix, s.pay, _, _, rfl, fun _ => rfl, id, id, by decide⟩
    · have := wholeBytes_le s hg
      have := hk.1
      refine ⟨s.pix, _, _, _, rfl, fun h => absurd rfl h, id, fun hw => writeBytes_wf s _ _ hw (by omega), ?_⟩
      rw [BitVec.toNat_ofNat, Nat.mod_eq_of_lt (by omega)]
      omega
    · have := wholeBytes_le s hg
      have := hk.1
      exact ⟨s.pix, _, _, _, rfl, fun _ => rfl, id, fun hw => writeBytes_wf s _ _ hw (by omega), by decide⟩
    · have := wholeBytes_le s hg
      exact ⟨s.pix, _, _, _, rfl, fun _ => rfl, id, fun hw => writeBytes_wf s _ _ hw (by omega), by decide⟩

/-- No command ends in a fault. -/
theorem exec_ne_fault (i : Instr) (s : State) (f : Fault) : exec i s ≠ .fault f := by
  intro h
  cases i with
  | capacity => rcases execCapacity_cases s with ⟨-, e⟩ | ⟨-, e⟩ <;> rw [exec, e] at h <;> cases h
  | embed =>
    rcases execEmbed_cases s with ⟨-, e⟩ | ⟨-, -, e⟩ | ⟨-, -, sp, -, e⟩ | ⟨-, -, -, e⟩ <;> rw [exec, e] at h <;> cases h
  | extract =>
    rcases execExtract_cases s with ⟨-, e⟩ | ⟨-, sp, -, e⟩ | ⟨-, -, k, -, -, e⟩ | ⟨-, -, k, -, -, e⟩ | ⟨-, -, -, e⟩ <;>
      rw [exec, e] at h <;> cases h

/-- A reset clears the registers; it touches a memory only where it abandons a command that writes it (R120, R121). -/
theorem hostReset_next {s t : State} (h : hostReset s = .next t) :
    ∃ p q d, t = clearRegisters { s with pix := p, pay := q, draws := d } ∧ (s.pix.wf → p.wf) ∧ (s.pay.wf → q.wf) ∧
      (s.busy = false → p = s.pix ∧ q = s.pay ∧ d = s.draws) := by
  unfold hostReset at h
  cases hb : s.busy
  · rw [hb] at h
    cases h
    exact ⟨s.pix, s.pay, s.draws, rfl, id, id, fun _ => ⟨rfl, rfl, rfl⟩⟩
  · rw [hb, if_pos rfl] at h
    split at h
    · cases h
      exact ⟨s.pix, s.pay, s.draws, rfl, id, id, fun h => Bool.noConfusion h⟩
    · unfold abandonEmbed at h
      split at h
      · cases h
        exact ⟨s.pix, s.pay, s.draws, rfl, id, id, fun h => Bool.noConfusion h⟩
      · rename_i hc
        rw [Bool.or_eq_true, not_or, Bool.not_eq_true, dimsBad_eq_false_iff, decide_eq_true_eq, Nat.not_lt] at hc
        split at h <;> cases h
        exact ⟨_, s.pay, _, rfl, fun hw => writeSlots_wf s _ _ hw hc.1 hc.2, id, fun h => Bool.noConfusion h⟩
    · unfold abandonExtract at h
      split at h
      · cases h
        exact ⟨s.pix, s.pay, s.draws, rfl, id, id, fun h => Bool.noConfusion h⟩
      · rename_i hc
        rw [Bool.not_eq_true, dimsBad_eq_false_iff] at hc
        have := wholeBytes_le s hc
        split at h <;> cases h
        exact ⟨s.pix, _, _, rfl, id, fun hw => writeBytes_wf s _ _ hw (by omega), fun h => Bool.noConfusion h⟩
    · cases h

/-- A memory read or write by the host that has a meaning is made while the block is idle (R63, R64). -/
theorem hostMemRead_next {s t : State} {sp : Space} {a : Word} (h : hostMemRead s sp a = .next t) :
    s.busy = false ∧ a.toNat < s.pop sp ∧ t = s.see (.mem sp a (s.byte sp a.toNat)) := by
  unfold hostMemRead at h
  split at h
  · cases h
  · split at h
    · rename_i hb hp
      cases h
      exact ⟨by simpa using hb, hp, rfl⟩
    · cases h

theorem hostMemWrite_next {s t : State} {sp : Space} {a : Word} {v : Byte} (h : hostMemWrite s sp a v = .next t) :
    s.busy = false ∧ a.toNat < s.pop sp ∧ t = s.putByte sp a.toNat v := by
  unfold hostMemWrite at h
  split at h
  · cases h
  · split at h
    · rename_i hb hp
      cases h
      exact ⟨by simpa using hb, hp, rfl⟩
    · cases h

/-- What the write of register `n` can do (R57, R58, R59). -/
theorem regWrite_cases (s : State) (n : Nat) (v : Word) :
    (s.busy = true ∧ regWrite s n v = s) ∨
    (s.busy = false ∧ n ≠ 0 ∧ regWrite s n v = regWriteIdle s n v) ∨
    (s.busy = false ∧ n = 0 ∧ (∃ r, decode v = .error r) ∧ regWrite s n v = finish s .illegalCommand 0) ∨
    (s.busy = false ∧ n = 0 ∧ ∃ i, decode v = .ok i ∧ regWrite s n v =
      { s with result := 0, err := .none, op := v.extractLsb' 0 2, done := false, busy := true }) := by
  unfold regWrite
  cases hb : s.busy
  · rcases n with _ | n
    · cases hd : decode v with
      | error r => simp [regWriteIdle, issue, hd]
      | ok i => simp [regWriteIdle, issue, hd]
    · simp
  · simp

/-- A step is the host's next action, or the engine's completion, or nothing: whatever it answers. -/
theorem step_eq_cases (s : State) :
    (s.busy = false ∧ s.script = [] ∧ step s = .next s) ∨
    (∃ a as ts, s.script = a :: as ∧
      (s.busy = false ∧ ts = s.turns ∨ s.busy = true ∧ s.turns = .host :: ts) ∧
      step s = hostAct { s with script := as, turns := ts } a) ∨
    (∃ ts, s.busy = true ∧ (ts = s.turns ∨ s.turns = .engine :: ts) ∧
      step s = engineAct { s with turns := ts }) := by
  unfold step nextTurn
  split
  · exact .inl ⟨‹_›, ‹_›, rfl⟩
  · exact .inr (.inl ⟨_, _, s.turns, ‹_›, .inl ⟨‹_›, rfl⟩, rfl⟩)
  · exact .inr (.inr ⟨s.turns, ‹_›, .inl rfl, rfl⟩)
  · exact .inr (.inr ⟨s.turns, ‹_›, .inl rfl, rfl⟩)
  · exact .inr (.inl ⟨_, _, _, ‹_›, .inr ⟨‹_›, ‹_›⟩, rfl⟩)
  · exact .inr (.inr ⟨_, ‹_›, .inr ‹_›, rfl⟩)

/-- Everything a step can do, when it answers a next state. -/
theorem step_cases {s t : State} (h : step s = .next t) :
    (s.busy = false ∧ s.script = [] ∧ t = s) ∨
    (∃ a as ts, s.script = a :: as ∧
      (s.busy = false ∧ ts = s.turns ∨ s.busy = true ∧ s.turns = .host :: ts) ∧
      hostAct { s with script := as, turns := ts } a = .next t) ∨
    (∃ ts i, s.busy = true ∧ (ts = s.turns ∨ s.turns = .engine :: ts) ∧ opInstr s.op = some i ∧
      exec i { s with turns := ts } = .next t) := by
  rcases step_eq_cases s with ⟨hb, hs, e⟩ | ⟨a, as, ts, hs, ht, e⟩ | ⟨ts, hb, ht, e⟩ <;> rw [e] at h
  · cases h
    exact .inl ⟨hb, hs, rfl⟩
  · exact .inr (.inl ⟨a, as, ts, hs, ht, h⟩)
  · unfold engineAct at h
    split at h
    · exact .inr (.inr ⟨ts, _, hb, ht, ‹_›, h⟩)
    · cases h

/-! ### Runs of many steps -/

theorem runFor_zero (s : State) : runFor 0 s = .next s := rfl

theorem runFor_succ_of_next {k : Nat} {s t : State} (h : step s = .next t) : runFor (k + 1) s = runFor k t := by
  unfold runFor
  simp only [Host.Core.run]
  rw [show Sys2Proof.core.step s = .next t from h]

theorem runFor_succ_of_fault {k : Nat} {s : State} {f : Fault} (h : step s = .fault f) :
    runFor (k + 1) s = .fault f := by
  unfold runFor
  simp only [Host.Core.run]
  rw [show Sys2Proof.core.step s = .fault f from h]
  rfl

theorem runFor_succ_of_refused {k : Nat} {s : State} {r : Refusal} (h : step s = .refused r) :
    runFor (k + 1) s = .refused r := by
  unfold runFor
  simp only [Host.Core.run]
  rw [show Sys2Proof.core.step s = .refused r from h]
  rfl

/-- A run that ends in a next state took its first step to one. -/
theorem runFor_succ_next {k : Nat} {s t : State} (h : runFor (k + 1) s = .next t) :
    ∃ u, step s = .next u ∧ runFor k u = .next t := by
  cases hs : step s with
  | next u => exact ⟨u, rfl, (runFor_succ_of_next hs).symm.trans h⟩
  | fault f => exact nomatch (runFor_succ_of_fault hs).symm.trans h
  | refused r => exact nomatch (runFor_succ_of_refused hs).symm.trans h

end Sys2Proof.Machine
end

