-- ==== Sys2Proof/Laws/Orderly.lean ====
section
/-! SUPPORT. The premises of rule R69 along a run: what a step does to the window between a legal `CMD` write and the read
that sees `DONE = 1`, and the small lemmas of host procedures (R53). -/

namespace Sys2Proof.Machine

/-! ### One step and the window -/

/-- Taking an action off the script does not change whether it is allowed. -/
theorem allowed_setHost (owed : Bool) (s : State) (a : HostStep) (as : List HostStep) (ts : List Agent) :
    allowed owed { s with script := as, turns := ts } a = allowed owed s a := by cases a <;> rfl

/-- Nor what it does to the window. -/
theorem owedBy_setHost (owed : Bool) (s : State) (a : HostStep) (as : List HostStep) (ts : List Agent) :
    owedBy owed { s with script := as, turns := ts } a = owedBy owed s a := by cases a <;> rfl

/-- The step that is due, with what it means for the window: no move, the host's next action, or the engine's. -/
theorem step_window_cases (owed : Bool) (s : State) :
    (s.busy = false ∧ s.script = [] ∧ step s = .next s ∧ stepAllowed owed s = true ∧ owedAfter owed s = owed) ∨
    (∃ a as ts, s.script = a :: as ∧
      (s.busy = false ∧ ts = s.turns ∨ s.busy = true ∧ s.turns = .host :: ts) ∧
      step s = hostAct { s with script := as, turns := ts } a ∧
      stepAllowed owed s = allowed owed s a ∧ owedAfter owed s = owedBy owed s a) ∨
    (∃ ts, s.busy = true ∧ (ts = s.turns ∨ s.turns = .engine :: ts) ∧
      step s = engineAct { s with turns := ts } ∧ stepAllowed owed s = true ∧ owedAfter owed s = owed) := by
  unfold step stepAllowed owedAfter nextTurn
  split
  · exact .inl ⟨‹_›, ‹_›, rfl, rfl, rfl⟩
  · exact .inr (.inl ⟨_, _, s.turns, ‹_›, .inl ⟨‹_›, rfl⟩, rfl, allowed_setHost .., owedBy_setHost ..⟩)
  · exact .inr (.inr ⟨s.turns, ‹_›, .inl rfl, rfl, rfl, rfl⟩)
  · exact .inr (.inr ⟨s.turns, ‹_›, .inl rfl, rfl, rfl, rfl⟩)
  · exact .inr (.inl ⟨_, _, _, ‹_›, .inr ⟨‹_›, ‹_›⟩, rfl, allowed_setHost .., owedBy_setHost ..⟩)
  · exact .inr (.inr ⟨_, ‹_›, .inr ‹_›, rfl, rfl, rfl⟩)

/-- A run that keeps the premises does so in its first step, and then from there. -/
theorem orderlyFor_succ_next {k : Nat} {owed : Bool} {s t : State} (h : orderlyFor (k + 1) owed s = true)
    (hs : step s = .next t) : stepAllowed owed s = true ∧ orderlyFor k (owedAfter owed s) t = true := by
  rw [orderlyFor, hs, Bool.and_eq_true] at h
  exact h

theorem orderlyFor_succ_of_next {k : Nat} {owed : Bool} {s t : State} (hs : step s = .next t)
    (h : stepAllowed owed s = true) (ht : orderlyFor k (owedAfter owed s) t = true) :
    orderlyFor (k + 1) owed s = true := by
  rw [orderlyFor, hs, Bool.and_eq_true]
  exact ⟨h, ht⟩

/-- A script that owes a `WAIT` keeps the premises also where none is owed. -/
theorem waitsFirst_mono : ∀ l, waitsFirst true l = true → waitsFirst false l = true
  | [], _ => rfl
  | .regRead _ :: l, h => waitsFirst_mono l h
  | .wait :: _, h => h

/-! ### What the host knows -/

@[simp] theorem lastRead_nil (n : Nat) : lastRead n [] = none := rfl

@[simp] theorem lastRead_reg (n m : Nat) (v : Word) (seen : List Reading) :
    lastRead n (.reg m v :: seen) = if m = n then some v else lastRead n seen := rfl

@[simp] theorem lastRead_mem (n : Nat) (sp : Space) (a : Word) (v : Byte) (seen : List Reading) :
    lastRead n (.mem sp a v :: seen) = lastRead n seen := rfl

/-- Bits 7:4 of `STATUS` are the code of `ERR` (R15). -/
theorem statusWord_err (s : State) : (statusWord s).extractLsb' 4 4 = errCode s.err := by
  unfold statusWord
  cases s.err <;> cases s.done <;> cases s.busy <;> decide

/-- Bit 1 of `STATUS` is `DONE` (R15). -/
theorem statusWord_done (s : State) : (statusWord s).getLsbD 1 = s.done := by
  unfold statusWord
  cases s.err <;> cases s.done <;> cases s.busy <;> decide

/-- The host sees a success exactly when the `STATUS` it read last says `ERR = 0`. -/
theorem sawSuccess_of_status (s : State) {seen : List Reading} (h : lastRead 1 seen = some (regValue s 1)) :
    sawSuccess seen = decide (s.err = .none) := by
  unfold sawSuccess lastErr
  rw [h, show regValue s 1 = statusWord s from rfl, Option.map_some, statusWord_err]
  cases s.err <;> decide

/-- `WAIT` of a command that has not completed: one more reading, and the `WAIT` stays. -/
theorem hostWait_pending {s : State} (h : s.done = false) :
    hostWait s = { hostRegRead s 1 with script := .wait :: s.script } := by
  unfold hostWait
  rw [statusWord_done, h]
  rfl

/-- `WAIT` of a command that has completed is a read of `STATUS`. -/
theorem hostWait_done {s : State} (h : s.done = true) : hostWait s = hostRegRead s 1 := by
  unfold hostWait
  rw [statusWord_done, h]
  rfl

/-! ### Lines of memory reads -/

@[simp] theorem linesRead_zero (sp : Space) (a : Nat) : linesRead sp a 0 = [] := rfl

@[simp] theorem linesRead_succ (sp : Space) (a n : Nat) :
    linesRead sp a (n + 1) = .memRead sp (BitVec.ofNat 32 a) :: linesRead sp (a + 1) n := rfl

end Sys2Proof.Machine
end

