-- ==== Sys2Proof/Laws/PerInstr.lean ====
section
/-! SUPPORT. The facts stated of every command as syntax: its word is legal by the two fields of format `CMDW` (R46),
and the low two bits of its word, which acceptance keeps in `OP` (R59), stand for it again (R62). -/

namespace Sys2Proof.Laws.LegalWord

/-- The word of a command is legal, and `OP` identifies the command. -/
def Statement (i : Instr) : Prop :=
  rsvZero (encode i) = true ∧ opcKnown (encode i) = true ∧ opInstr ((encode i).extractLsb' 0 2) = some i

theorem capacity : Statement .capacity := by unfold Statement; decide

theorem embed : Statement .embed := by unfold Statement; decide

theorem extract : Statement .extract := by unfold Statement; decide

end Sys2Proof.Laws.LegalWord
end

