-- ==== Sys2Proof/Laws/Utf8.lean ====
section
/-! SUPPORT. The UTF-8 check, one sequence at a time (R93). -/

namespace Sys2Proof.Machine

@[simp] theorem utf8Valid_nil : utf8Valid [] = true := rfl

/-- A list that begins with a byte is valid when a row begins with that byte and the rest of the list pays what the
row owes. -/
theorem utf8Valid_cons (b : Byte) (l : List Byte) :
    utf8Valid (b :: l) = match utf8Lead b with
      | some row => utf8From row.rest l
      | none => false := rfl

@[simp] theorem utf8From_owed_nil (r : ByteRange) (owed : List ByteRange) : utf8From (r :: owed) [] = false := rfl

@[simp] theorem utf8From_owed_cons (r : ByteRange) (owed : List ByteRange) (b : Byte) (l : List Byte) :
    utf8From (r :: owed) (b :: l) = (r.has b && utf8From owed l) := rfl

/-- The row a byte leads is a row of the table whose 1st range has it. -/
theorem utf8Lead_some {b : Byte} {row : Utf8Row} (h : utf8Lead b = some row) :
    row ∈ utf8Table ∧ row.first.has b = true :=
  ⟨List.mem_of_find?_eq_some h, by simpa using List.find?_some h⟩

end Sys2Proof.Machine
end

