-- ==== Sys2Proof/Laws/Written.lean ====
section
/-! SUPPORT. The premise `memory_written` of rule R69 along a run: no command and no reset loses a byte that is listed, and
what a step does to the list of what the host has written. -/

namespace Sys2Proof.Machine

/-! ### What is listed stays listed -/

/-- A write loses no listed byte. -/
theorem Memory.isSome_byteAt?_put {m : Memory} {a : Nat} (b : Nat) (v : Byte) (h : (m.byteAt? a).isSome) :
    ((m.put b v).byteAt? a).isSome := by
  rw [Memory.byteAt?_put]
  split
  · rfl
  · exact h

/-- A listed byte reads the same whatever the memory held at power-on. -/
theorem Memory.read_of_isSome {m : Memory} {a : Nat} (u w : Nat → Byte) (h : (m.byteAt? a).isSome) :
    m.read u a = m.read w a := by
  obtain ⟨v, hv⟩ := Option.isSome_iff_exists.1 h
  rw [Memory.read, Memory.read, hv]
  rfl

theorem writeSlots_listed {s : State} {a : Nat} (lands : Nat → Bool) (n : Nat) (h : (s.pix.byteAt? a).isSome) :
    ((writeSlots s lands n).byteAt? a).isSome := by
  induction n with
  | zero => exact h
  | succ n ih =>
    unfold writeSlots
    cases hl : lands (slotAddr s.alpha n)
    · simpa [hl] using ih
    · simpa only [hl, if_true] using Memory.isSome_byteAt?_put _ _ ih

theorem writeBytes_listed {s : State} {a : Nat} (lands : Nat → Bool) (n : Nat) (h : (s.pay.byteAt? a).isSome) :
    ((writeBytes s lands n).byteAt? a).isSome := by
  induction n with
  | zero => exact h
  | succ n ih =>
    unfold writeBytes
    split
    · exact Memory.isSome_byteAt?_put _ _ ih
    · exact ih

/-! A list over the memories of a changed state. -/

@[simp] theorem State.lists_finish (s : State) (e : ErrKind) (r : Word) (w : Written) :
    (finish s e r).lists w ↔ s.lists w :=
  forall₂_congr fun ⟨sp, _⟩ _ => by cases sp <;> rfl

@[simp] theorem State.lists_clearRegisters (s : State) (w : Written) : (clearRegisters s).lists w ↔ s.lists w :=
  forall₂_congr fun ⟨sp, _⟩ _ => by cases sp <;> rfl

theorem State.lists_setPix {s : State} {w : Written} {m : Memory} {d : Nat} (h : s.lists w)
    (hm : ∀ a, (s.pix.byteAt? a).isSome → (m.byteAt? a).isSome) : ({ s with pix := m, draws := d } : State).lists w := by
  rintro ⟨sp, a⟩ hx
  cases sp
  · exact hm a (h _ hx)
  · exact h _ hx

theorem State.lists_setPay {s : State} {w : Written} {m : Memory} {d : Nat} (h : s.lists w)
    (hm : ∀ a, (s.pay.byteAt? a).isSome → (m.byteAt? a).isSome) : ({ s with pay := m, draws := d } : State).lists w := by
  rintro ⟨sp, a⟩ hx
  cases sp
  · exact h _ hx
  · exact hm a (h _ hx)

theorem State.lists_putByte {s : State} {w : Written} (h : s.lists w) (sp : Space) (a : Nat) (v : Byte) :
    (s.putByte sp a v).lists ((sp, a) :: w) := by
  rintro ⟨sp', b⟩ hx
  rcases List.mem_cons.1 hx with e | hx
  · cases e
    cases sp <;> simp [State.putByte, State.mem]
  · have := h _ hx
    cases sp <;> cases sp' <;> first | exact this | exact Memory.isSome_byteAt?_put _ _ this

/-- A command that completes loses no listed byte. -/
theorem exec_lists {i : Instr} {s t : State} {w : Written} (h : exec i s = .next t) (hw : s.lists w) : t.lists w := by
  cases i with
  | capacity =>
    rcases execCapacity_cases s with ⟨-, e⟩ | ⟨-, e⟩ <;> rw [exec, e] at h <;> cases h <;>
      exact (State.lists_finish ..).2 hw
  | embed =>
    rcases execEmbed_cases s with ⟨-, e⟩ | ⟨-, -, e⟩ | ⟨-, -, sp, -, e⟩ | ⟨-, -, -, e⟩ <;> rw [exec, e] at h <;>
      cases h <;> rw [State.lists_finish]
    exacts [hw, hw, State.lists_setPix hw fun _ => writeSlots_listed _ _]
  | extract =>
    rcases execExtract_cases s with ⟨-, e⟩ | ⟨-, sp, -, e⟩ | ⟨-, -, k, -, -, e⟩ | ⟨-, -, k, -, -, e⟩ | ⟨-, -, -, e⟩ <;>
      rw [exec, e] at h <;> cases h <;> rw [State.lists_finish]
    · exact hw
    all_goals exact State.lists_setPay hw fun _ => writeBytes_listed _ _

/-- Nor does a reset, in either phase. -/
theorem hostReset_lists {s t : State} {w : Written} (h : hostReset s = .next t) (hw : s.lists w) : t.lists w := by
  unfold hostReset at h
  split at h
  · split at h
    · cases h; exact (State.lists_clearRegisters ..).2 hw
    · unfold abandonEmbed at h
      split at h
      · cases h; exact (State.lists_clearRegisters ..).2 hw
      · split at h <;> cases h
        exact (State.lists_clearRegisters ..).2 (State.lists_setPix hw fun _ => writeSlots_listed _ _)
    · unfold abandonExtract at h
      split at h
      · cases h; exact (State.lists_clearRegisters ..).2 hw
      · split at h <;> cases h
        exact (State.lists_clearRegisters ..).2 (State.lists_setPay hw fun _ => writeBytes_listed _ _)
    · cases h
  · cases h; exact (State.lists_clearRegisters ..).2 hw

/-! ### One step and the list -/

/-- The step that is due, with what it does to the list: no move, the host's next action, or the engine's. -/
theorem step_written_cases (w : Written) (s : State) :
    (s.busy = false ∧ s.script = [] ∧ step s = .next s ∧ writtenAfter w s = w) ∨
    (∃ a as ts, s.script = a :: as ∧
      (s.busy = false ∧ ts = s.turns ∨ s.busy = true ∧ s.turns = .host :: ts) ∧
      step s = hostAct { s with script := as, turns := ts } a ∧ writtenAfter w s = writtenBy w a) ∨
    (∃ ts, s.busy = true ∧ (ts = s.turns ∨ s.turns = .engine :: ts) ∧
      step s = engineAct { s with turns := ts } ∧ writtenAfter w s = w) := by
  unfold step writtenAfter nextTurn
  split
  · exact .inl ⟨‹_›, ‹_›, rfl, rfl⟩
  · exact .inr (.inl ⟨_, _, s.turns, ‹_›, .inl ⟨‹_›, rfl⟩, rfl, rfl⟩)
  · exact .inr (.inr ⟨s.turns, ‹_›, .inl rfl, rfl, rfl⟩)
  · exact .inr (.inr ⟨s.turns, ‹_›, .inl rfl, rfl, rfl⟩)
  · exact .inr (.inl ⟨_, _, _, ‹_›, .inr ⟨‹_›, ‹_›⟩, rfl, rfl⟩)
  · exact .inr (.inr ⟨_, ‹_›, .inr ‹_›, rfl, rfl⟩)

/-- A run that keeps the premise does so in its first state, and then from the next. -/
theorem memoryWrittenRun_succ_next {k : Nat} {w : Written} {s t : State} (h : memoryWrittenRun (k + 1) w s = true)
    (hs : step s = .next t) : commandWritten w s = true ∧ memoryWrittenRun k (writtenAfter w s) t = true := by
  rw [memoryWrittenRun, hs, Bool.and_eq_true] at h
  exact h

/-- The premise, for the command a busy block runs. -/
theorem commandWritten_busy {w : Written} {s : State} {i : Instr} (h : commandWritten w s = true) (hb : s.busy = true)
    (hi : opInstr s.op = some i) : memoryWrittenFor w i s = true := by
  unfold commandWritten at h
  rw [hb, hi] at h
  exact h

end Sys2Proof.Machine
end

