-- ==== Sys2Proof/Tests/Slice0.lean ====
section
/-! SUPPORT. The model's own tests.  First the checks of well-formedness and decoding; then one step of each command and
of the host on small states, expected results from the spec's vectors (`95_test_vectors.md`), named in the comments;
then, for every obligation with hypotheses, a concrete state that meets them together (`witness_…`). -/

open Sys2Proof Sys2Proof.Machine

namespace Sys2Proof.Tests

-- One theorem at a time: kernel evaluations that wait for each other hold a thread, and its stack, each.
set_option Elab.async false

/-! ### Helpers -/

/-- The bytes of `l` at addresses `a`, `a + 1`, … -/
def cellsFrom : Nat → List Byte → Memory
  | _, [] => []
  | a, b :: l => (a, b) :: cellsFrom (a + 1) l

/-- An idle block with its operand registers and memories set. -/
def block (alpha : Bool) (w h : Dim) (payLen : Word) (pix pay : List Byte) : State :=
  { State.reset with
    alpha := alpha, width := w, height := h, payLen := payLen, pix := cellsFrom 0 pix, pay := cellsFrom 0 pay }

/-- The same block just after the acceptance of command `i`. -/
def accepted (s : State) (i : Instr) : State := issue s (encode i)

/-- Whether an outcome is a next state that passes a test. -/
def answers (o : Host.Outcome State Fault Refusal) (p : State → Bool) : Bool :=
  match o with
  | .next t => p t
  | _ => false

theorem next_with {o : Host.Outcome State Fault Refusal} {P : State → Prop} [DecidablePred P]
    (h : answers o (fun t => decide (P t)) = true) : ∃ t, o = .next t ∧ P t := by
  cases o with
  | next t => exact ⟨t, rfl, of_decide_eq_true h⟩
  | fault f => cases h
  | refused r => cases h

/-- The low bits of the nine bytes of `DELIM` after the bits of `l`, one per byte: the slots of a grid that holds them. -/
def slotsOf (l : List Byte) : List Byte :=
  ((l ++ delim).map (fun b => (List.range 8).map (fun j => bitByte (b.getLsbD (7 - j))))).flatten

/-- V14: a 4 by 6 RGBA grid with `PIX[a] = (5*a + 1) mod 256`, an empty payload. -/
def rgba : State := block true 4 6 0 ((List.range 96).map (fun a => BitVec.ofNat 8 (5 * a + 1))) (List.replicate 9 0xEE)

/-- A 24 by 1 RGB grid of zeros: 72 slots, exactly those of the delimiter; an empty payload. -/
def fit : State := block false 24 1 0 (List.replicate 72 0) (List.replicate 9 0xEE)

/-- A 27 by 1 RGB grid of `80`: 81 slots; a payload of one byte `b`. -/
def one (b : Byte) : State := block false 27 1 1 (List.replicate 81 0x80) [b]

/-- A 27 by 1 RGB grid that holds the byte `b` and the delimiter, and one slot more. -/
def stego (b : Byte) : State := block false 27 1 0 (slotsOf [b] ++ [0xFF]) []

/-! ### Well-formedness and decoding -/

/-- R46: the check of the reserved field refuses a word with a bit of 31:8 set. -/
theorem test_reserved_bits_refused :
    rsvZero 0x00000102#32 = false ∧ rsvZero 0x80000001#32 = false ∧ legalWord 0x00000102#32 = false := by decide

/-- R46, R49: the check of the opcode field refuses 0 and 4 to 255. -/
theorem test_unknown_opcodes_refused :
    opcKnown 0x00000000#32 = false ∧ opcKnown 0x00000004#32 = false ∧ opcKnown 0x000000FF#32 = false ∧
      legalWord 0x00000000#32 = false ∧ legalWord 0x00000004#32 = false := by decide

/-- The instructions of the table are well-formed. -/
theorem test_instructions_well_formed :
    Instr.wellFormed .capacity = true ∧ Instr.wellFormed .embed = true ∧ Instr.wellFormed .extract = true := by decide

/-- R47, row CAPACITY: RSV zero in bits 31:8, OPC 0x01 in bits 7:0. -/
theorem test_decode_capacity : decode (0b000000000000000000000000#24 ++ 0b00000001#8) = .ok .capacity := by decide

/-- R47, row EMBED: OPC 0x02. -/
theorem test_decode_embed : decode (0b000000000000000000000000#24 ++ 0b00000010#8) = .ok .embed := by decide

/-- R47, row EXTRACT: OPC 0x03. -/
theorem test_decode_extract : decode (0b000000000000000000000000#24 ++ 0b00000011#8) = .ok .extract := by decide

/-- V1: words that are illegal. -/
theorem test_decode_illegal :
    decode 0 = .error (.illegalCommand 0) ∧ decode 4 = .error (.illegalCommand 4) ∧
      decode 0x102 = .error (.illegalCommand 0x102) ∧
      decode 0x80000001 = .error (.illegalCommand 0x80000001) := by decide

/-! ### One step -/

/-- V5: 10 by 10 gives 37; V7: whatever `ALPHA` and `PAY_LEN` hold. -/
theorem test_capacity_ten_by_ten :
    answers (exec .capacity (block true 10 10 0xFFFFFFFF [] [])) (fun t => t.result = 37 ∧ t.err = .none) = true := by
  decide

/-- V5 and V6: the largest grid, whose bit count just fits 32 bits; a width one larger reads as negative. -/
theorem test_capacity_largest :
    answers (exec .capacity (block false 32767 32767 0 [] [])) (fun t => t.result = 402628608 ∧ t.err = .none) = true ∧
      answers (exec .capacity (block false 32768 5 0 [] [])) (fun t => t.result = 0 ∧ t.err = .invalidDimensions) = true := by
  decide

/-- V14: rows 0, 16 and 80 of the grid after EMBED, and `RESULT`. -/
theorem test_embed_rgba :
    answers (exec .embed rgba) (fun t =>
      t.result = 72 ∧ t.err = .none ∧
      (t.pix.map Prod.snd).take 32 = [
        0x00, 0x06, 0x0B, 0x10, 0x14, 0x1A, 0x1E, 0x24, 0x29, 0x2F, 0x32, 0x38, 0x3C, 0x43, 0x46, 0x4C,
        0x50, 0x56, 0x5B, 0x60, 0x65, 0x6A, 0x6E, 0x74, 0x79, 0x7E, 0x82, 0x88, 0x8C, 0x93, 0x97, 0x9C] ∧
      (t.pix.map Prod.snd).drop 80 = [
        0x90, 0x96, 0x9B, 0xA0, 0xA5, 0xAA, 0xAE, 0xB4, 0xB9, 0xBE, 0xC2, 0xC8, 0xCC, 0xD3, 0xD7, 0xDC]) = true := by
  decide +kernel

/-- V17, V16: `N = 2^32` does not wrap; the dimensions are tested first. -/
theorem test_embed_refuses_what_does_not_fit :
    answers (exec .embed (block false 10 10 0x1FFFFFF7 [] [])) (fun t => t.result = 0 ∧ t.err = .capacityExceeded) = true ∧
      answers (exec .embed (block false 0 10 0xFFFFFFFF [] [])) (fun t => t.err = .invalidDimensions) = true := by
  decide

/-- R90, R91 and V31 with a byte of its own: one payload byte `41`, the delimiter, one slot no byte needs. -/
theorem test_extract_one_byte :
    answers (exec .extract (stego 0x41)) (fun t =>
      t.result = 1 ∧ t.err = .none ∧ t.pix = (stego 0x41).pix ∧
      t.pay.map Prod.snd = [0x41, 0x23, 0x23, 0x23, 0x45, 0x4E, 0x44, 0x23, 0x23, 0x23]) = true := by
  decide +kernel

/-- V30 and V22: a byte that is no UTF-8; and the delimiter's first 69 bits in a 23 by 1 grid. -/
theorem test_extract_failures :
    answers (exec .extract (stego 0xFF)) (fun t => t.result = 0 ∧ t.err = .invalidEncoding) = true ∧
      answers (exec .extract (block false 23 1 0 ((slotsOf []).take 69) [])) (fun t =>
        t.err = .noHiddenMessage ∧ t.pay.map Prod.snd = [0x23, 0x23, 0x23, 0x45, 0x4E, 0x44, 0x23, 0x23]) = true := by
  decide +kernel

/-- V2: the low 16 bits of a width are kept; V3: an illegal word is reported at once. -/
theorem test_register_writes :
    answers (hostAct State.reset (.regWrite 3 0x0001000A)) (fun t => regValue t 3 = 0x0000000A) = true ∧
      answers (hostAct State.reset (.regWrite 0 0x00000102)) (fun t => regValue t 1 = 0x00000052) = true := by decide

/-- V4: `STATUS` of a busy block; V3: `STATUS` after each kind of completion seen in V6. -/
theorem test_status_word :
    regValue (accepted (block false 10 10 0 [] []) .capacity) 1 = 0x00000001 ∧
      answers (exec .capacity State.reset) (fun t => regValue t 1 = 0x00000012) = true := by decide

/-- R93: one list for each of the vectors V30 to V37. -/
theorem test_utf8_vectors :
    [[0xFF], [0xC3, 0xA9], [0xC3], [0xE2, 0x82, 0xAC], [0xED, 0xA0, 0x80], [0xC0, 0x80], [0xF4, 0x90, 0x80, 0x80],
      [0xF0, 0x9F, 0x98, 0x80]].map utf8Valid = [false, true, false, true, false, false, false, true] := by decide

/-- R68, R59, R60: from reset the word of EMBED runs in the very next step and, with `WIDTH = 0`, completes with an error. -/
theorem test_step_runs_the_word :
    answers (step (State.reset.withFetchWord 32 2)) (fun t => regValue t 1 = 0x00000012) = true ∧
      answers (step (State.reset.withFetchWord 32 4)) (fun t => regValue t 1 = 0x00000052) = true := by decide

/-! ### Witnesses: reset and power -/

/-- For `ResetPutsRegistersToZeroAndKeepsMemories` and the second clause of `OutcomeStaysUntilTheNextCommand`: an idle block with registers and memories that are not zero. -/
theorem witness_reset_idle : rgba.busy = false ∧ rgba.alpha = true ∧ rgba.pix ≠ [] := by decide

/-- For `ResetOfABusyBlockAbandonsItsCommand`: a busy block for each command, EMBED at exact fit. -/
theorem witness_reset_busy :
    (accepted rgba .capacity).busy = true ∧ opInstr (accepted rgba .capacity).op = some .capacity ∧
      populatedFor .capacity (accepted rgba .capacity) ∧
      (accepted rgba .embed).busy = true ∧ opInstr (accepted rgba .embed).op = some .embed ∧
      populatedFor .embed (accepted rgba .embed) ∧ bitsNeeded (accepted rgba .embed) = slotCount (accepted rgba .embed) ∧
      (accepted rgba .extract).busy = true ∧ opInstr (accepted rgba .extract).op = some .extract ∧
      populatedFor .extract (accepted rgba .extract) ∧ wholeBytes (accepted rgba .extract) = 9 := by
  unfold populatedFor; decide

/-- For the same: busy commands that would fail their checks, on no grid and on one a byte too small. -/
theorem witness_reset_of_a_failing_command :
    (∀ i ∈ [Instr.capacity, .embed, .extract],
      (accepted State.reset i).busy = true ∧ opInstr (accepted State.reset i).op = some i) ∧
      populatedFor .embed (accepted State.reset .embed) ∧ populatedFor .extract (accepted State.reset .extract) ∧
      ¬ legalGrid (accepted State.reset .extract) ∧
      opInstr (accepted { fit with payLen := 1 } .embed).op = some .embed ∧
      populatedFor .embed (accepted { fit with payLen := 1 } .embed) ∧
      legalGrid (accepted { fit with payLen := 1 } .embed) ∧
      slotCount (accepted { fit with payLen := 1 } .embed) < bitsNeeded (accepted { fit with payLen := 1 } .embed) := by
  unfold populatedFor legalGrid; decide

/-! ### Witnesses: encoding -/

/-- For `DecoderMapsThreeWordsAndRejectsTheRest`: 0, 4 and the largest word are none of the three. -/
theorem witness_other_words : ∀ v ∈ [0x00000000#32, 0x00000004#32, 0xFFFFFFFF#32],
    v ≠ 0x00000001#32 ∧ v ≠ 0x00000002#32 ∧ v ≠ 0x00000003#32 := by
  intro v h
  simp only [List.mem_cons, List.not_mem_nil, or_false] at h
  rcases h with rfl | rfl | rfl <;> decide

/-- For `EncodeAndDecodeAgree`: each command is well-formed, and some word decodes to each. -/
theorem witness_commands_decode : ∀ i ∈ [Instr.capacity, .embed, .extract],
    i.wellFormed = true ∧ decode (encode i) = .ok i := by decide

/-! ### Witnesses: registers -/

/-- The block of V14, busy, meets the invariant. -/
theorem accepted_inv : (accepted rgba .embed).Inv :=
  ⟨by decide +kernel, by decide +kernel, by decide, by decide, by decide, by decide, by decide⟩

/-- For `RegisterReadsReturnTheRegisters`: a number above 6, and a busy state that meets the invariant. -/
theorem witness_register_reads : (7 ≤ 7) ∧ (accepted rgba .embed).Inv ∧ (accepted rgba .embed).busy = true :=
  ⟨by decide, accepted_inv, by decide⟩

/-- For `IdleRegisterWritesStoreTheirField`, `CommandWriteAcceptsOrReports`, `HostMemoryAccessesReachTheByte`: idle
blocks, a legal word of each command, an illegal word, and the last address of each memory. -/
theorem witness_idle_block :
    rgba.busy = false ∧ 7 ≤ 7 ∧ decode 1 = .ok .capacity ∧ decode 2 = .ok .embed ∧ decode 3 = .ok .extract ∧
      (∀ i, decode 4 ≠ .ok i) ∧ (0xFFFFFFFF#32).toNat < rgba.pop .pix ∧ (0xFFFFFFFF#32).toNat < rgba.pop .pay := by
  refine ⟨by decide, by decide, by decide, by decide, by decide, ?_, by decide, by decide⟩
  intro i; cases i <;> decide

/-- For `WrittenRegistersReadBack`: one write for each clause. -/
theorem witness_register_writes :
    rgba.busy = false ∧
      (∃ t, hostAct rgba (.regWrite 2 0xFFFFFFFE) = .next t ∧ regValue t 2 = 0) ∧
      (∃ t, hostAct rgba (.regWrite 3 0xFFFFFFFF) = .next t ∧ regValue t 3 = 0x0000FFFF) ∧
      (∃ t, hostAct rgba (.regWrite 4 0x00010000) = .next t ∧ regValue t 4 = 0) ∧
      (∃ t, hostAct rgba (.regWrite 5 0xDEADBEEF) = .next t ∧ regValue t 5 = 0xDEADBEEF) ∧
      (∃ t, hostAct rgba (.regWrite 1 0xFFFFFFFF) = .next t ∧ regValue t 1 = 0) ∧
      ∃ t, hostAct rgba (.regWrite 7 0xFFFFFFFF) = .next t ∧ regValue t 7 = 0 := by
  refine ⟨by decide, ?_, ?_, ?_, ?_, ?_, ?_⟩ <;> exact next_with (by decide)

/-- For `BusyRegisterWritesAreDropped`: a busy block whose host writes `WIDTH` before the engine moves, and one whose
engine moves while the host's next action is a reset. -/
theorem witness_busy_step :
    ((accepted rgba .embed).busy = true ∧
      (∃ t, step { accepted rgba .embed with script := [.regWrite 3 20], turns := [.host] } = .next t ∧
        t.width = 4 ∧ t.script = []) ∧
      (∀ u, nextTurn { accepted rgba .embed with script := [.regWrite 3 20], turns := [.host] } ≠ .host .reset u) ∧
      ∀ u, nextTurn { accepted rgba .embed with script := [.regWrite 3 20], turns := [.host] } ≠ .host .powerCycle u) ∧
      (∃ t, step { accepted fit .capacity with script := [.reset], turns := [.engine] } = .next t ∧ t.width = 24) ∧
      (∀ u, nextTurn { accepted fit .capacity with script := [.reset], turns := [.engine] } ≠ .host .reset u) ∧
      ∀ u, nextTurn { accepted fit .capacity with script := [.reset], turns := [.engine] } ≠ .host .powerCycle u :=
  ⟨⟨by decide, next_with (by decide), nofun, nofun⟩, next_with (by decide), nofun, nofun⟩

/-- For `OnlyACommandWriteStartsACommand`: the step that accepts EMBED, and a read of `STATUS` while EMBED runs. -/
theorem witness_acceptance_step :
    ({ rgba with script := [.regWrite 0 2] } : State).busy = false ∧
      (∃ t, step { rgba with script := [.regWrite 0 2] } = .next t ∧ t.busy = true) ∧
      ({ accepted rgba .embed with script := [.regRead 1], turns := [.host] } : State).busy = true ∧
      ∃ t, step { accepted rgba .embed with script := [.regRead 1], turns := [.host] } = .next t ∧ t.busy = true :=
  ⟨by decide, next_with (by decide), by decide, next_with (by decide)⟩

/-- For `OutcomeStaysUntilTheNextCommand`: after a completed CAPACITY the host writes `WIDTH`. -/
theorem witness_outcome_stays :
    ({ finish rgba .none 9 with script := [.regWrite 3 20] } : State).busy = false ∧
      (∃ t, step { finish rgba .none 9 with script := [.regWrite 3 20] } = .next t ∧ t.width = 20) ∧
      (∀ v as, [HostStep.regWrite 3 20] ≠ .regWrite 0 v :: as) ∧
      (∀ as, [HostStep.regWrite 3 20] ≠ .reset :: as) ∧ ∀ as, [HostStep.regWrite 3 20] ≠ .powerCycle :: as :=
  ⟨by decide, next_with (by decide), by simp, by simp, by simp⟩

/-- For `HostMemoryAccessWhileBusyIsRefused`. -/
theorem witness_busy_block : (accepted rgba .extract).busy = true := by decide

/-! ### Witnesses: grids -/

/-- For `NothingWrapsOnALegalGrid` and `SlotAddressesAreDistinctAndInTheGrid`: the largest grid, and its last slot. -/
theorem witness_largest_grid :
    legalGrid (block true 32767 32767 0 [] []) ∧ 3221028866 < slotCount (block true 32767 32767 0 [] []) ∧
      gridBytes (block true 32767 32767 0 [] []) = 4294705156 := by
  unfold legalGrid; decide

/-- For `CapacityCompletesWithTheFloor`: no grid, both sides of 24 pixels, and the largest grid. -/
theorem witness_positive_dimensions :
    (State.reset.width.toInt ≤ 0 ∨ State.reset.height.toInt ≤ 0) ∧
      ∀ s ∈ [block false 1 1 0 [] [], block false 23 1 0 [] [], fit, block false 32767 32767 0 [] []],
        0 < s.width.toInt ∧ 0 < s.height.toInt := by decide

/-- For `CapacityIsPure`: two states alike in `WIDTH` and `HEIGHT` only. -/
theorem witness_same_dimensions :
    (block false 4 6 7 [] []).width = rgba.width ∧ (block false 4 6 7 [] []).height = rgba.height ∧
      ∃ t, exec .capacity (block false 4 6 7 [] []) = .next t ∧ t.result = 9 :=
  ⟨by decide, by decide, next_with (by decide)⟩

/-- For `EmbedRaisesInvalidDimensionsFirst` and `ExtractRaisesInvalidDimensionsFirst`: 0, -1 and -32768, in either field. -/
theorem witness_bad_dimensions :
    ∀ s ∈ [block false 0 5 0 [] [], block false 0xFFFF 5 0 [] [], block false 5 0 0 [] [], block false 5 0x8000 0 [] []],
      s.width.toInt ≤ 0 ∨ s.height.toInt ≤ 0 := by decide

/-- For `EmbedRaisesCapacityExceededExactly`: a legal grid that the stream fits exactly, and one byte more. -/
theorem witness_capacity_test :
    legalGrid fit ∧ (8 * (fit.payLen.toNat + 9) : Int) = gridWidth fit * gridHeight fit * 3 ∧
      legalGrid { fit with payLen := 1 } ∧
      (8 * (({ fit with payLen := 1 } : State).payLen.toNat + 9) : Int) >
        gridWidth { fit with payLen := 1 } * gridHeight { fit with payLen := 1 } * 3 ∧
      ∃ t, exec .embed fit = .next t ∧ t.err = .none := by
  unfold legalGrid
  exact ⟨by decide, by decide, by decide, by decide, next_with (by decide +kernel)⟩

/-- For `EmbedSucceedsExactlyWithinCapacity`: a populated grid at the boundary, and one of 23 pixels. -/
theorem witness_within_capacity :
    (legalGrid fit ∧ populatedFor .embed fit ∧ ∃ c, exec .capacity fit = .next c ∧ c.result = 9) ∧
      legalGrid (block false 23 1 0 [] []) ∧ populatedFor .embed (block false 23 1 0 [] []) ∧
      gridWidth (block false 23 1 0 [] []) * gridHeight (block false 23 1 0 [] []) < 24 ∧
      ∃ c, exec .capacity (block false 23 1 0 [] []) = .next c ∧ c.result = 8 := by
  unfold legalGrid populatedFor
  exact ⟨⟨by decide, by decide, next_with (by decide)⟩, by decide, by decide, by decide, next_with (by decide)⟩

/-! ### Witnesses: EMBED -/

/-- For `BitStreamIsPayloadThenDelimiter`: the last bit of a stream of one payload byte, and of the delimiter. -/
theorem witness_stream_bits : 79 < 8 * ((one 0x41).payLen.toNat + 9) ∧ 71 < 72 := by decide

/-- For `EmbedWritesTheStreamAndNothingElse`: no grid, a grid a byte too small, an exact fit, and a grid with a slot to
spare. -/
theorem witness_embed_fits :
    ¬ legalGrid State.reset ∧
      (legalGrid { fit with payLen := 1 } ∧
        slotCount { fit with payLen := 1 } < 8 * (({ fit with payLen := 1 } : State).payLen.toNat + 9)) ∧
    (legalGrid rgba ∧ populatedFor .embed rgba ∧ 8 * (rgba.payLen.toNat + 9) ≤ slotCount rgba) ∧
      legalGrid (one 0x41) ∧ populatedFor .embed (one 0x41) ∧ 8 * ((one 0x41).payLen.toNat + 9) ≤ slotCount (one 0x41) := by
  unfold legalGrid populatedFor; decide

/-- For `EmbedDistortsAChannelByAtMostOne`, `EmbedLeavesTheRestUntouched` and `EmbedTwiceIsEmbedOnce`: a completed EMBED,
an alpha byte, an address above the grid, and a slot behind the stream. -/
theorem witness_embed_completes :
    (∃ t, exec .embed rgba = .next t ∧ t.err = .none) ∧ rgba.alpha = true ∧ 95 % 4 = 3 ∧ gridBytes rgba ≤ 96 ∧
      8 * (rgba.payLen.toNat + 9) ≤ 72 :=
  ⟨next_with (by decide +kernel), by decide, by decide, by decide, by decide⟩

/-! ### Witnesses: EXTRACT -/

/-- For `LsbByteStreamIsTheSlotsLowBits`: two grids of another shape whose slots agree in bit 0 only. -/
theorem witness_same_low_bits :
    slotCount fit = slotCount (block false 4 6 5 (List.replicate 72 0xFE) []) ∧
      fit.alpha = (block false 4 6 5 (List.replicate 72 0xFE) []).alpha ∧
      (∀ n < slotCount fit, (fit.byte .pix (slotAddr fit.alpha n)).getLsbD 0 =
        ((block false 4 6 5 (List.replicate 72 0xFE) []).byte .pix (slotAddr fit.alpha n)).getLsbD 0) ∧
      8 < wholeBytes fit := by
  decide +kernel

/-- For `ExtractIsTheFunctionOfItsStream`, first and second clause: no grid; grids without a delimiter, of 9 whole bytes and
of 8. -/
theorem witness_no_delimiter :
    ¬ legalGrid State.reset ∧
    (legalGrid fit ∧ populatedFor .extract fit ∧
      ∀ k, 8 ≤ k → k < wholeBytes fit → ∃ i < 9, lsbByte fit (k - 8 + i) ≠ delim.getD i 0) ∧
      legalGrid (block false 23 1 0 (List.replicate 69 0) []) ∧
      populatedFor .extract (block false 23 1 0 (List.replicate 69 0) []) ∧
      wholeBytes (block false 23 1 0 (List.replicate 69 0) []) = 8 := by
  unfold legalGrid populatedFor
  refine ⟨by decide, ⟨by decide, by decide, ?_⟩, by decide, by decide, by decide⟩
  intro k h1 h2
  have : k = 8 := by have : wholeBytes fit = 9 := by decide
                     omega
  subst this
  exact ⟨0, by decide, by decide +kernel⟩

/-- For `ExtractIsTheFunctionOfItsStream`, third clause: the delimiter completed by the last whole byte, after one byte
that is UTF-8 and after one that is not, and at the very start. -/
theorem witness_delimiter_found :
    (∀ b ∈ [0x41#8, 0xFF#8],
      (0 < gridWidth (stego b) ∧ 0 < gridHeight (stego b)) ∧
      (gridBytes (stego b) ≤ (stego b).pixPop ∧ wholeBytes (stego b) ≤ (stego b).payPop) ∧
      1 + 8 < wholeBytes (stego b) ∧ (∀ i < 9, lsbByte (stego b) (1 + i) = delim.getD i 0) ∧
      ∀ m < 1, ∃ i < 9, lsbByte (stego b) (m + i) ≠ delim.getD i 0) ∧
      utf8Valid ((List.range 1).map (lsbByte (stego 0x41))) = true ∧
      utf8Valid ((List.range 1).map (lsbByte (stego 0xFF))) = false ∧
      0 + 8 < wholeBytes (block false 24 1 0 (slotsOf []) []) ∧
      ∀ i < 9, lsbByte (block false 24 1 0 (slotsOf []) []) (0 + i) = delim.getD i 0 := by
  decide +kernel

/-- For `NoHiddenMessageExactlyWithoutADelimiter` and `ExtractAgainGivesTheSame`: an EXTRACT that finds its delimiter, and
one of a grid of fewer than 72 slots. -/
theorem witness_extract_completes :
    (legalGrid (stego 0x41) ∧ ∃ t, exec .extract (stego 0x41) = .next t ∧ t.err = .none) ∧
      legalGrid (block false 23 1 0 (List.replicate 69 0) []) ∧
      slotCount (block false 23 1 0 (List.replicate 69 0) []) < 72 ∧
      ∃ t, exec .extract (block false 23 1 0 (List.replicate 69 0) []) = .next t ∧ t.err = .noHiddenMessage := by
  unfold legalGrid
  exact ⟨⟨by decide, next_with (by decide +kernel)⟩, by decide, by decide, next_with (by decide +kernel)⟩

/-! ### Witnesses: EMBED and EXTRACT together -/

/-- For `ExtractRecoversWhatEmbedStored`: one byte that is UTF-8, then one that is not, embedded in a 27 by 1 grid and
read back as a 9 by 3 grid. -/
theorem witness_round_trip : ∀ b ∈ [0x41#8, 0xFF#8],
    ∃ t, exec .embed (one b) = .next t ∧ t.err = .none ∧
      (0 < gridWidth { t with width := 9, height := 3 } ∧ 0 < gridHeight { t with width := 9, height := 3 }) ∧
      (gridBytes { t with width := 9, height := 3 } ≤ t.pixPop ∧ wholeBytes { t with width := 9, height := 3 } ≤ t.payPop) ∧
      t.alpha = (one b).alpha ∧ bitsNeeded (one b) ≤ slotCount { t with width := 9, height := 3 } ∧
      (∀ n < bitsNeeded (one b), slotBit { t with width := 9, height := 3 } n = slotBit t n) ∧
      (∀ i < (one b).payLen.toNat, ¬ ((payloadBytes (one b) ++ delim).drop i).take delimLength = delim) ∧
      utf8Valid (payloadBytes (one b)) = (b == 0x41) := by
  intro b h
  simp only [List.mem_cons, List.not_mem_nil, or_false] at h
  rcases h with rfl | rfl <;> exact next_with (by decide +kernel)

/-- V24: a 40 by 1 grid of zeros and the payload `###END`. -/
def collision : State :=
  block false 40 1 6 (List.replicate 120 0) [0x23, 0x23, 0x23, 0x45, 0x4E, 0x44]

/-- For `ExtractStopsAtTheFirstDelimiter`: a payload that ends with `###END`, embedded and read as it stands. -/
theorem witness_collision :
    (∃ t, exec .embed collision = .next t ∧ t.err = .none ∧
      (0 < gridWidth t ∧ 0 < gridHeight t) ∧ (gridBytes t ≤ t.pixPop ∧ wholeBytes t ≤ t.payPop) ∧
      t.alpha = collision.alpha ∧ bitsNeeded collision ≤ slotCount t) ∧
      delimAt (payloadBytes collision ++ delim) 0 ∧ utf8Valid ((payloadBytes collision).take 0) = true := by
  unfold delimAt
  exact ⟨next_with (by decide +kernel), by decide +kernel, by decide⟩

/-! ### Witnesses: errors, inputs and memory that is there -/

/-- For `FirstFailingTestReports` and `ErrorsLeaveNoPartialWrites`: a grid that is not legal, one that is, an illegal
word, and a command that ends with each error. -/
theorem witness_errors :
    ¬ legalGrid State.reset ∧ legalGrid fit ∧ (∀ i, decode 4 ≠ .ok i) ∧
      (∃ t, hostAct fit (.regWrite 0 4) = .next t ∧ t.err = .illegalCommand) ∧
      (∃ t, exec .capacity State.reset = .next t ∧ t.err ≠ .none) ∧
      (∃ t, exec .embed { fit with payLen := 1 } = .next t ∧ t.err ≠ .none) ∧
      (∃ t, exec .extract fit = .next t ∧ t.err = .noHiddenMessage) ∧
      ∃ t, exec .extract (stego 0xFF) = .next t ∧ t.err = .invalidEncoding := by
  refine ⟨by unfold legalGrid; decide, by unfold legalGrid; decide, ?_, next_with (by decide), next_with (by decide),
    next_with (by decide), next_with (by decide +kernel), next_with (by decide +kernel)⟩
  intro i; cases i <;> decide

/-- For `OutcomeIsAFunctionOfTheInputs`: two states alike in a command's inputs, but not in `STATUS` and `RESULT`. -/
theorem witness_same_inputs :
    fit.sameInputs (finish fit .noHiddenMessage 0) ∧ fit ≠ finish fit .noHiddenMessage 0 ∧
      ∃ t, exec .embed fit = .next t ∧ t.err = .none :=
  ⟨⟨rfl, rfl, rfl, rfl, fun _ _ => rfl, fun sp => by cases sp <;> rfl⟩, by decide, next_with (by decide +kernel)⟩

/-- For `BytesOutsideTheSlotsAreNeverAccessed`: two pixel memories that differ in an alpha byte, the last of the grid. -/
theorem witness_alpha_byte :
    legalGrid rgba ∧ (∃ t, exec .embed rgba = .next t ∧ t.err = .none) ∧
      (∀ n < slotCount rgba, ({ rgba with pix := rgba.pix.put 95 0 } : State).byte .pix (slotAddr rgba.alpha n) =
        rgba.byte .pix (slotAddr rgba.alpha n)) ∧
      rgba.pix.put 95 0 ≠ rgba.pix ∧ ∀ n < slotCount rgba, 95 ≠ slotAddr rgba.alpha n := by
  unfold legalGrid
  exact ⟨by decide, next_with (by decide +kernel), by decide +kernel, by decide +kernel, by decide +kernel⟩

/-- The first `n` bytes of PIX and the first `m` of PAY, as a list of what the host has written. -/
def wrote (n m : Nat) : Written := (List.range n).map (Prod.mk .pix) ++ (List.range m).map (Prod.mk .pay)

/-- For `PowerOnContentsDoNotMatterOnceWritten`: memories written as far as EMBED and EXTRACT read them, by the host. -/
theorem witness_memory_written :
    (listedFor .embed (one 0x41) ∧ (∃ t, exec .embed (one 0x41) = .next t ∧ t.err = .none) ∧
      listedFor .extract (stego 0x41) ∧ ∃ t, exec .extract (stego 0x41) = .next t ∧ t.err = .none) ∧
      ((one 0x41).lists (wrote 81 1) ∧ memoryWrittenFor (wrote 81 1) .embed (one 0x41) = true ∧
        memoryWrittenFor (wrote 81 0) .embed (one 0x41) = false ∧
        memoryWrittenFor (wrote 80 1) .embed (one 0x41) = false) ∧
      (stego 0x41).lists (wrote 81 0) ∧ memoryWrittenFor (wrote 81 0) .extract (stego 0x41) = true := by
  unfold listedFor State.lists
  exact ⟨⟨by decide +kernel, next_with (by decide +kernel), by decide +kernel, next_with (by decide +kernel)⟩,
    ⟨by decide +kernel, by decide +kernel, by decide +kernel, by decide +kernel⟩, by decide +kernel, by decide +kernel⟩

/-- R69 `memory_written`: bytes the engine has written do not count.  After an EMBED on a 24 by 1 grid that nothing has
written, the grid is listed, but the premise of an EXTRACT is not met. -/
theorem test_engine_bytes_are_not_the_hosts :
    answers (exec .embed { fit with pix := [] }) (fun t =>
      decide (∀ a < gridBytes t, (t.pix.byteAt? a).isSome) && !memoryWrittenFor [] .extract t) = true := by decide +kernel

/-- For `PopulatedCommandsComplete`: memories that just suffice, and ones a byte short. -/
theorem witness_population :
    populatedFor .embed { one 0x41 with pixPop := 81, payPop := 1 } ∧
      populatedFor .extract { fit with pixPop := 72, payPop := 9 } ∧
      exec .embed { fit with pixPop := 71 } = .refused (.commandUnpopulated .pix) ∧
      exec .embed { one 0x41 with payPop := 0 } = .refused (.commandUnpopulated .pay) ∧
      exec .extract { fit with payPop := 8 } = .refused (.commandUnpopulated .pay) := by
  unfold populatedFor
  refine ⟨by decide, by decide, rfl, rfl, ?_⟩
  have h : ∀ o : Host.Outcome State Fault Refusal,
      (match o with | .refused r => decide (r = .commandUnpopulated .pay) | _ => false) = true →
        o = .refused (.commandUnpopulated .pay) := by
    intro o h; cases o with
    | refused r => exact congrArg _ (of_decide_eq_true h)
    | next t => cases h
    | fault f => cases h
  exact h _ (by decide +kernel)

/-- For `PopulatedCommandsComplete`, second clause, and `CommandsReachTheirSlotsAndBytes`: an EXTRACT that stops at its
delimiter completes where the memory holds just what it reaches, 80 of 81 slots and 10 bytes; one that finds none reaches
the whole grid; EMBED reaches its bits, or nothing where they do not fit. -/
theorem witness_reach :
    ((∀ n < slotsReached .extract { stego 0x41 with pixPop := 80, payPop := 10 }, slotAddr false n < 80) ∧
      bytesReached .extract { stego 0x41 with pixPop := 80, payPop := 10 } ≤ 10 ∧
      ¬ populatedFor .extract { stego 0x41 with pixPop := 80, payPop := 10 } ∧
      ∃ t, exec .extract { stego 0x41 with pixPop := 80, payPop := 10 } = .next t ∧ t.err = .none) ∧
      (legalGrid (stego 0x41) ∧ stopsAt (stego 0x41) 9 ∧ slotsReached .extract (stego 0x41) = 80 ∧
        bytesReached .extract (stego 0x41) = 10) ∧
      ¬ legalGrid State.reset ∧ legalGrid (one 0x41) ∧ 8 * ((one 0x41).payLen.toNat + 9) ≤ slotCount (one 0x41) ∧
      slotCount { one 0x41 with payLen := 2 } < 8 * (({ one 0x41 with payLen := 2 } : State).payLen.toNat + 9) ∧
      ∀ k < wholeBytes fit, ¬ matchAt fit k := by
  unfold legalGrid populatedFor stopsAt matchAt
  exact ⟨⟨by decide +kernel, by decide +kernel, by decide +kernel, next_with (by decide +kernel)⟩,
    ⟨by decide, by decide +kernel, by decide +kernel, by decide +kernel⟩, by decide, by decide, by decide, by decide,
    by decide +kernel⟩

/-! ### Witnesses: the machine -/

/-- For `EngineStepRunsTheCommandInExecution`, `HostStepTakesTheNextAction` and `BothSchedulesOfAnEarlyWrite`: P5, a busy
block whose host has a write left, under each schedule. -/
theorem witness_turns :
    (accepted fit .capacity).busy = true ∧ opInstr (accepted fit .capacity).op = some .capacity ∧
      (accepted fit .capacity).script = [] ∧ (accepted fit .capacity).turns = [] ∧
      (∀ ts ∈ [[Agent.host], [Agent.engine]],
        ({ accepted fit .capacity with script := [.regWrite 3 20], turns := ts } : State).busy = true) ∧
      (∃ t, exec .capacity { accepted fit .capacity with script := [.regWrite 3 20], turns := [] } = .next t ∧
        t.width = 24) ∧
      fit.busy = false ∧ ({ fit with script := [.wait] } : State).script = [.wait] :=
  ⟨by decide, by decide, by decide, by decide, by decide, next_with (by decide), by decide, by decide⟩

/-- For `WrittenCommandIsRun`: an idle block whose host writes the word of EMBED, and the table's three words. -/
theorem witness_written_command :
    ({ fit with script := [.regWrite 0 2] } : State).busy = false ∧ decode 2 = .ok .embed ∧ fit.turns = [] ∧
      decodeTableWord 32 1 = some .capacity ∧ decodeTableWord 32 2 = some .embed ∧
      decodeTableWord 32 3 = some .extract := by decide

/-- For `RestIsStable`: a block with an outcome, at rest. -/
theorem witness_rest : (finish fit .none 72).atRest := by unfold State.atRest; decide

/-- For `EveryStepKeepsTheInvariant`: the busy block of V14, whose next step completes EMBED. -/
theorem witness_invariant :
    (accepted rgba .embed).Inv ∧ ∃ t, step (accepted rgba .embed) = .next t ∧ t.err = .none :=
  ⟨accepted_inv, next_with (by decide +kernel)⟩

/-- For `BusyBlockCompletesWithinItsTurns`: a busy block whose host waits through two turns. -/
theorem witness_busy_turns :
    ({ accepted fit .embed with script := [.wait], turns := [.host, .host] } : State).busy = true ∧
      ({ accepted fit .embed with script := [.wait], turns := [.host, .host] } : State).op ≠ 0 := by decide

/-- For `ReadsDuringACommandAreInvisible`: CAPACITY, two reads while it runs, and a `WAIT`. -/
theorem witness_reads_while_busy :
    fit.busy = false ∧ decode 1 = .ok .capacity ∧
      ([HostStep.regWrite 0 1, .regRead 1, .regRead 6, .wait] =
        .regWrite 0 1 :: ([1, 6].map HostStep.regRead ++ [.wait])) ∧
      [Agent.host, .host] = List.replicate [1, 6].length .host := by decide

/-- `fit`, its host running CAPACITY, waiting for it and then writing `WIDTH` and a pixel. -/
def waiting : State := { fit with script := [.regWrite 0 1, .wait, .regWrite 3 20, .memWrite .pix 0 1] }

/-- `fit`, its host reading `STATUS` once, without a `WAIT`, and then reading a pixel. -/
def polling : State := { fit with script := [.regWrite 0 1, .regRead 1, .memRead .pix 0] }

theorem fit_inv : fit.Inv :=
  ⟨by decide +kernel, by decide +kernel, by decide, by decide, by decide, by decide, by decide⟩

/-- The invariant says nothing of the host. -/
theorem inv_setHost {s : State} (h : s.Inv) (sc : List HostStep) (ts : List Agent) :
    ({ s with script := sc, turns := ts } : State).Inv :=
  ⟨h.pixWf, h.payWf, h.busyNotDone, h.busyHasOp, h.clearUntilDone, h.errorClearsResult, h.resultBound⟩

/-- For `OrderlyHostsMeetNoForbiddenAccess`: the host of `waiting`; that of `polling` where its one read returns `DONE = 1`,
which closes the window; and single steps, before the window opens and in it.  Where the read comes too early the
premises are broken. -/
theorem witness_orderly :
    (waiting.Inv ∧ waiting.busy = false ∧ orderlyFor 5 false waiting = true) ∧
      (({ polling with turns := [.engine] } : State).Inv ∧ orderlyFor 4 false { polling with turns := [.engine] } = true) ∧
      (({ accepted rgba .embed with script := [.regRead 6], turns := [.host] } : State).busy = true ∧
        stepAllowed true { accepted rgba .embed with script := [.regRead 6], turns := [.host] } = true ∧
        ∃ t, step { accepted rgba .embed with script := [.regRead 6], turns := [.host] } = .next t ∧ t.busy = true) ∧
      orderlyFor 4 false { polling with turns := [.host] } = false :=
  ⟨⟨inv_setHost fit_inv _ _, by decide, by decide +kernel⟩, ⟨inv_setHost fit_inv _ _, by decide +kernel⟩,
    ⟨by decide, by decide, next_with (by decide)⟩, by decide +kernel⟩

/-- R69 `no_reset_while_busy`: a reset is barred while `BUSY = 1`, and only then. -/
theorem test_reset_in_the_window :
    orderlyFor 3 false { fit with script := [.regWrite 0 1, .reset], turns := [.engine] } = true ∧
      orderlyFor 3 false { fit with script := [.regWrite 0 1, .reset], turns := [.host] } = false := by decide +kernel

/-- For `ScheduleDoesNotMatterToAnOrderlyHost`: one script under two schedules, at rest after five steps and after seven. -/
theorem witness_two_schedules :
    waiting.busy = false ∧
      (orderlyFor 5 false { waiting with turns := [.engine] } = true ∧
        ∃ t, runFor 5 { waiting with turns := [.engine] } = .next t ∧
          (t.busy = false ∧ t.script = []) ∧ t.result = 9 ∧ t.width = 20) ∧
      orderlyFor 7 false { waiting with turns := [.host, .host] } = true ∧
      ∃ u, runFor 7 { waiting with turns := [.host, .host] } = .next u ∧
        (u.busy = false ∧ u.script = []) ∧ u.result = 9 ∧ u.width = 20 :=
  ⟨by decide, ⟨by decide +kernel, next_with (by decide +kernel)⟩, by decide +kernel, next_with (by decide +kernel)⟩

/-- For `WaitingScriptsKeepThePremises`: the script of `waiting`, and `capacity_bytes`. -/
theorem witness_waits_first :
    waiting.busy = false ∧ waitsFirst false waiting.script = true ∧
      waitsFirst false (scriptCapacityBytes 10 10) = true := by decide

/-- For `WhatTheHostHasWrittenStaysListed`: a memory write enters its byte, a loss of power empties the list, and the
engine's step, due in each of the three ways, leaves it alone. -/
theorem witness_host_writes :
    (fit.lists (wrote 72 9) ∧
      ∃ t, step { fit with script := [.memWrite .pix 72 1] } = .next t ∧
        (∀ x ∈ writtenAfter (wrote 72 9) { fit with script := [.memWrite .pix 72 1] }, ((t.mem x.1).byteAt? x.2).isSome) ∧
        ((.pix, 72) : Space × Nat) ∈ writtenAfter (wrote 72 9) { fit with script := [.memWrite .pix 72 1] }) ∧
      (fit.busy = false ∧ ({ fit with script := [.powerCycle] } : State).script = .powerCycle :: []) ∧
      (accepted fit .embed).busy = true ∧ (accepted fit .embed).script = [] ∧ (accepted fit .embed).turns = [] ∧
      ({ accepted fit .embed with script := [.wait], turns := [.engine, .host] } : State).turns = .engine :: [.host] ∧
      ∃ t, step (accepted fit .embed) = .next t ∧ t.err = .none := by
  unfold State.lists
  exact ⟨⟨by decide +kernel, next_with (by decide +kernel)⟩, by decide, by decide, by decide, by decide, by decide,
    next_with (by decide +kernel)⟩

/-- `one 0x41`, its host running EMBED, waiting for it and then reading a pixel above the grid, which it has not written. -/
def embedding : State := { one 0x41 with script := [.regWrite 0 2, .wait, .memRead .pix 81] }

/-- For `PowerOnContentsDoNotMatterToARun`: the run of `embedding`, its grid and payload written by the host; the same run
where the host has left out one pixel does not keep the premise. -/
theorem witness_written_run :
    (∀ x ∈ wrote 81 1, ((embedding.mem x.1).byteAt? x.2).isSome) ∧ memoryWrittenRun 4 (wrote 81 1) embedding = true ∧
      (∃ t, runFor 4 embedding = .next t ∧ (t.busy = false ∧ t.script = []) ∧ t.err = .none) ∧
      memoryWrittenRun 4 (wrote 80 1) embedding = false :=
  ⟨by decide +kernel, by decide +kernel, next_with (by decide +kernel), by decide +kernel⟩

/-! ### Host procedures -/

/-- `fit` after an EXTRACT whose host has read `STATUS`: one byte recovered, or an error. -/
def answered (e : ErrKind) (res : Word) : State :=
  hostRegRead (finish { fit with pay := [(0, 0x41)], payPop := 1 } e res) 1

/-- For `ExtractProcedureReadsThePayload`: a success whose payload just fits the memory, and an error. -/
theorem witness_read_payload :
    ((answered .none 1).busy = false ∧ (answered .none 1).seen = [.reg 1 (regValue (answered .none 1) 1)] ∧
      (answered .none 1).err = .none ∧ (answered .none 1).result.toNat ≤ (answered .none 1).payPop) ∧
      (answered .invalidEncoding 0).busy = false ∧
      (answered .invalidEncoding 0).seen = [.reg 1 (regValue (answered .invalidEncoding 0) 1)] ∧
      (answered .invalidEncoding 0).err ≠ .none := by decide

/-- R53, `hide` with its test: 28 bytes fit the capacity 37 that was read, 29 do not; `analyze` reports 37 and 28. -/
theorem test_hide_and_analyze :
    payloadFits (List.replicate 28 0x41) [.reg 6 37, .reg 1 2] = true ∧
      payloadFits (List.replicate 29 0x41) [.reg 6 37, .reg 1 2] = false ∧
      ((procHide true 0 10 10 [] (List.replicate 29 0x41)).map (fun f => f [.reg 6 37, .reg 1 2])).tail = [[]] ∧
      lastResult [.reg 6 37, .reg 1 2] = 37 ∧ sawSuccess [.reg 6 37, .reg 1 2] = true ∧
      usableMessage [.reg 6 37, .reg 1 2] = 28 ∧ usableMessage [.reg 6 8, .reg 1 2] = -1 := by decide

end Sys2Proof.Tests
end

section
/-! PROOFS. The bounds of `00_scope.md` R5 that the laws of the operands leave open: `T` as an integer, the bytes of a
legal grid, and `N`, the one quantity that can pass 32 bits. -/

namespace Sys2Proof.Machine

/-- `w * h` of a legal grid is positive, so its truncation to a natural number loses nothing. -/
theorem pixels_pos (s : State) (h : legalGrid s) : 0 < gridWidth s * gridHeight s := by
  obtain ⟨hw, hh⟩ := h
  exact mul_pos hw hh

/-- `T` of a legal grid is the integer `w * h * 3` (R5, R8). -/
theorem slotCount_eq_int (s : State) (h : legalGrid s) : (slotCount s : Int) = gridWidth s * gridHeight s * 3 := by
  have hpos := pixels_pos s h
  unfold slotCount
  exact Int.toNat_of_nonneg (by omega)

/-- The largest grid, of four-byte pixels, ends at PIX address `0xFFFC0003` (R5). -/
theorem gridBytes_le (s : State) (h : legalGrid s) : gridBytes s ≤ 0xFFFC0003 + 1 := by
  have hpix := pixels_le s h
  unfold gridBytes
  rcases bytesPerPixel_cases s.alpha with ⟨-, hb⟩ | ⟨-, hb⟩ <;> rw [hb] <;> omega

/-- `N = 8 * (PAY_LEN + 9)` for a 32-bit `PAY_LEN` (R5). -/
theorem bitsNeeded_le (s : State) : bitsNeeded s ≤ 2 ^ 35 + 64 := by
  have hlen : s.payLen.toNat < 2 ^ 32 := s.payLen.isLt
  unfold bitsNeeded payloadLength delimLength
  omega

/-- Settles O18: each bound follows from `w, h <= 32767`, which the 16-bit fields give, and `N` from the 32-bit
`PAY_LEN`. -/
theorem nothingWrapsOnALegalGrid : Obligations.NothingWrapsOnALegalGrid := by
  intro s hg
  have hw := gridWidth_lt s
  have hh := gridHeight_lt s
  have hpix := pixels_le s hg
  have hslots := slotCount_le s hg
  have hbytes := gridBytes_le s hg
  exact ⟨by omega, by omega, by omega, slotCount_eq_int s hg, hslots, by omega, hbytes, by omega,
    wholeBytes_le s hg, bitsNeeded_le s⟩

end Sys2Proof.Machine
end

section
/-! PROOFS. The invariant of the block: it holds after power-on, and the engine's completion, every host action and so
every step keep it. -/

namespace Sys2Proof.Machine

/-! ### What the invariant speaks of -/

/-- The invariant speaks of seven pieces of the block's state, and of nothing else. -/
theorem State.Inv.of_fields {s t : State} (h : s.Inv) (hpix : t.pix = s.pix) (hpay : t.pay = s.pay)
    (hbusy : t.busy = s.busy) (hdone : t.done = s.done) (herr : t.err = s.err) (hresult : t.result = s.result)
    (hop : t.op = s.op) : t.Inv where
  pixWf := hpix ▸ h.pixWf
  payWf := hpay ▸ h.payWf
  busyNotDone := by rw [hbusy, hdone]; exact h.busyNotDone
  busyHasOp := by rw [hbusy, hop]; exact h.busyHasOp
  clearUntilDone := by rw [hdone, herr, hresult]; exact h.clearUntilDone
  errorClearsResult := by rw [herr, hresult]; exact h.errorClearsResult
  resultBound := by rw [hresult]; exact h.resultBound

/-- It says nothing of the host's script, of the schedule, or of what the host has read. -/
theorem State.Inv.setHost {s : State} (h : s.Inv) (sc : List HostStep) (ts : List Agent) (seen : List Reading) :
    ({ s with script := sc, turns := ts, seen := seen } : State).Inv :=
  h.of_fields rfl rfl rfl rfl rfl rfl rfl

/-! ### The updates a step is made of -/

/-- A block whose registers have just been reset (R28, R120). -/
theorem inv_clearRegisters {s : State} (hpix : s.pix.wf) (hpay : s.pay.wf) : (clearRegisters s).Inv where
  pixWf := hpix
  payWf := hpay
  busyNotDone := nofun
  busyHasOp := nofun
  clearUntilDone _ := ⟨rfl, rfl⟩
  errorClearsResult _ := rfl
  resultBound := by simp

/-- A block whose command has just ended (R60): an error has left `RESULT = 0`, and the result is in bounds. -/
theorem inv_finish {s : State} {e : ErrKind} {r : Word} (hpix : s.pix.wf) (hpay : s.pay.wf)
    (herr : e ≠ .none → r = 0) (hbound : r.toNat ≤ 0xBFFD0003) : (finish s e r).Inv where
  pixWf := hpix
  payWf := hpay
  busyNotDone := nofun
  busyHasOp := nofun
  clearUntilDone := nofun
  errorClearsResult := herr
  resultBound := hbound

/-- The opcode acceptance leaves in `OP` is not 0 (R47, R59, R62). -/
theorem op_ne_zero_of_decode {v : Word} {i : Instr} (h : decode v = .ok i) : v.extractLsb' 0 2 ≠ 0 := by
  intro h0
  have hnone := (opInstr_eq_none_iff _).2 h0
  rw [opInstr_of_decode h] at hnone
  cases hnone

/-- A block that has just accepted a command (R59). -/
theorem inv_accept {s : State} {op : BitVec 2} (hpix : s.pix.wf) (hpay : s.pay.wf) (hop : op ≠ 0) :
    ({ s with result := 0, err := .none, op := op, done := false, busy := true } : State).Inv where
  pixWf := hpix
  payWf := hpay
  busyNotDone _ := rfl
  busyHasOp _ := hop
  clearUntilDone _ := ⟨rfl, rfl⟩
  errorClearsResult _ := rfl
  resultBound := by simp

/-! ### Every action keeps it -/

/-- The completion of a command. -/
theorem exec_inv {i : Instr} {s t : State} (h : s.Inv) (e : exec i s = .next t) : t.Inv := by
  obtain ⟨p, q, k, r, rfl, herr, hpix, hpay, hbound⟩ := exec_next e
  exact inv_finish (hpix h.pixWf) (hpay h.payWf) herr hbound

/-- A register write, in either phase. -/
theorem regWrite_inv {s : State} (h : s.Inv) (n : Nat) (v : Word) : (regWrite s n v).Inv := by
  rcases regWrite_cases s n v with ⟨-, e⟩ | ⟨-, hn, e⟩ | ⟨-, -, -, e⟩ | ⟨-, -, i, hd, e⟩ <;> rw [e]
  · exact h
  · exact h.of_fields (regWriteIdle_pix s n v hn) (regWriteIdle_pay s n v hn) (regWriteIdle_busy s n v hn)
      (regWriteIdle_done s n v hn) (regWriteIdle_err s n v hn) (regWriteIdle_result s n v hn) (regWriteIdle_op s n v hn)
  · exact inv_finish h.pixWf h.payWf (fun _ => rfl) (by decide)
  · exact inv_accept h.pixWf h.payWf (op_ne_zero_of_decode hd)

/-- A byte the host stores at a 32-bit address. -/
theorem putByte_inv {s : State} (h : s.Inv) (sp : Space) (a : Word) (v : Byte) : (s.putByte sp a.toNat v).Inv := by
  cases sp with
  | pix => exact { h with pixWf := Memory.wf_put _ _ v h.pixWf a.isLt }
  | pay => exact { h with payWf := Memory.wf_put _ _ v h.payWf a.isLt }

/-- One turn of `WAIT`. -/
theorem hostWait_inv {s : State} (h : s.Inv) : (hostWait s).Inv := by
  cases hd : s.done
  · rw [hostWait_pending hd]
    exact h.setHost (.wait :: s.script) s.turns _
  · rw [hostWait_done hd]
    exact h.setHost s.script s.turns _

/-- Any action of the host that answers a next state. -/
theorem hostAct_inv {a : HostStep} {s t : State} (h : s.Inv) (e : hostAct s a = .next t) : t.Inv := by
  cases a with
  | regRead n => cases e; exact h.setHost s.script s.turns _
  | regWrite n v => cases e; exact regWrite_inv h n v
  | memRead sp a =>
    obtain ⟨-, -, rfl⟩ := hostMemRead_next e
    exact h.setHost s.script s.turns _
  | memWrite sp a v =>
    obtain ⟨-, -, rfl⟩ := hostMemWrite_next e
    exact putByte_inv h sp a v
  | wait => cases e; exact hostWait_inv h
  | reset =>
    obtain ⟨p, q, d, rfl, hpix, hpay, -⟩ := hostReset_next e
    exact inv_clearRegisters (hpix h.pixWf) (hpay h.payWf)
  | powerCycle => cases e; exact inv_clearRegisters Memory.wf_nil Memory.wf_nil

/-- Settles O50: by what the step is, no move, the host's next action or the engine's completion. -/
theorem everyStepKeepsTheInvariant : Obligations.EveryStepKeepsTheInvariant := by
  intro s t h e
  rcases step_cases e with ⟨-, -, rfl⟩ | ⟨a, as, ts, -, -, e⟩ | ⟨ts, i, -, -, -, e⟩
  · exact h
  · exact hostAct_inv (h.setHost as ts s.seen) e
  · exact exec_inv (h.setHost s.script ts s.seen) e

/-- Settles O49: after power-on the registers are as a reset leaves them, and both memories list nothing. -/
theorem invariantHoldsAtReset : Obligations.InvariantHoldsAtReset :=
  inv_clearRegisters (s := State.reset) Memory.wf_nil Memory.wf_nil

end Sys2Proof.Machine
end

section
/-! PROOFS. The register window: what each register reads as after a reset, and after a write to the idle block. -/

namespace Sys2Proof.Machine

/-! ### Reset -/

/-- After a reset every register number reads 0 (R28, R120). -/
theorem regValue_clearRegisters (s : State) (n : Nat) : regValue (clearRegisters s) n = 0 := by
  match n with
  | 1 => simp [regValue, statusWord, errCode]
  | 2 => simp [regValue, cfgWord]
  | 3 | 4 => simp [regValue, dimWord]
  | 0 | 5 | 6 | _ + 7 => rfl

/-- An idle reset clears the registers, and does nothing else (R120). -/
theorem hostAct_reset_idle {s : State} (hb : s.busy = false) : hostAct s .reset = .next (clearRegisters s) := by
  simp [hostAct, hostReset, hb]

/-- Settles O1: the state after power-on has the registers a reset leaves, and an idle reset is that update alone. -/
theorem resetPutsRegistersToZeroAndKeepsMemories : Obligations.ResetPutsRegistersToZeroAndKeepsMemories := by
  refine ⟨⟨rfl, rfl, rfl, rfl, rfl, rfl, rfl, rfl, regValue_clearRegisters State.reset⟩, fun s hb => ?_⟩
  exact ⟨clearRegisters s, hostAct_reset_idle hb, rfl, rfl, rfl, rfl, rfl, rfl, rfl, rfl,
    regValue_clearRegisters s, rfl, rfl, State.byte_clearRegisters s⟩

/-! ### A write to the idle block that is no command -/

/-- While idle, the write of a register other than `CMD` stores its field and does nothing else (R57). -/
theorem hostAct_regWrite_idle {s t : State} {n : Nat} {v : Word} (hb : s.busy = false)
    (h : hostAct s (.regWrite n v) = .next t) : t = regWriteIdle s n v := by
  simpa [hostAct, regWrite, hb] using h.symm

/-- The write shows in no other register (R57). -/
theorem regValue_regWriteIdle_of_ne (s : State) {n m : Nat} (v : Word) (hn : n ≠ 0) (hm : m ≠ n) :
    regValue (regWriteIdle s n v) m = regValue s m := by
  match m with
  | 0 => rfl
  | 1 =>
    simp only [regValue, statusWord, regWriteIdle_err s n v hn, regWriteIdle_done s n v hn, regWriteIdle_busy s n v hn]
  | 2 => simp only [regValue, cfgWord, regWriteIdle_alpha s n v hn, if_neg hm.symm]
  | 3 => simp only [regValue, regWriteIdle_width s n v hn, if_neg hm.symm]
  | 4 => simp only [regValue, regWriteIdle_height s n v hn, if_neg hm.symm]
  | 5 => simp only [regValue, regWriteIdle_payLen s n v hn, if_neg hm.symm]
  | 6 => simp only [regValue, regWriteIdle_result s n v hn]
  | _ + 7 => rfl

/-- `CFG` reads as its bit 0 (R16, R56). -/
theorem toNat_cfgWord (s : State) : (cfgWord s).toNat = s.alpha.toNat := by
  cases h : s.alpha <;> simp [cfgWord, h]

/-- A `DIM` field reads as itself, zero-extended (R17, R18, R56). -/
theorem toNat_dimWord (d : Dim) : (dimWord d).toNat = d.toNat := by
  rw [dimWord, BitVec.toNat_append, BitVec.toNat_zero, Nat.zero_shiftLeft, Nat.zero_or]

/-- What register `n` itself reads as after the write: the value cut to its field, or what it read before where the
write does nothing (R16 to R21, R57). -/
theorem toNat_regValue_regWriteIdle_self (s : State) {n : Nat} (v : Word) (hn : n ≠ 0) :
    (regValue (regWriteIdle s n v) n).toNat =
      if n = 2 then v.toNat % 2
      else if n = 3 ∨ n = 4 then v.toNat % 65536
      else if n = 5 then v.toNat
      else (regValue s n).toNat := by
  match n with
  | 0 => exact absurd rfl hn
  | 1 => rfl
  | 2 =>
    show (cfgWord (regWriteIdle s 2 v)).toNat = v.toNat % 2
    rw [toNat_cfgWord]
    show (v.getLsbD 0).toNat = v.toNat % 2
    rw [BitVec.getLsbD, Nat.testBit_zero]
    rcases Nat.mod_two_eq_zero_or_one v.toNat with h | h <;> rw [h] <;> rfl
  | 3 =>
    show (dimWord (v.extractLsb' 0 16)).toNat = v.toNat % 65536
    rw [toNat_dimWord, BitVec.extractLsb'_toNat, Nat.shiftRight_zero]
  | 4 =>
    show (dimWord (v.extractLsb' 0 16)).toNat = v.toNat % 65536
    rw [toNat_dimWord, BitVec.extractLsb'_toNat, Nat.shiftRight_zero]
  | 5 => rfl
  | 6 => rfl
  | n + 7 =>
    rw [if_neg (by omega), if_neg (by omega), if_neg (by omega)]
    rfl

/-- Settles O10: an idle write other than to `CMD` is `regWriteIdle`, read back register by register. -/
theorem writtenRegistersReadBack : Obligations.WrittenRegistersReadBack := by
  intro s t n v hb hn h
  obtain rfl := hostAct_regWrite_idle hb h
  exact ⟨fun m hm => regValue_regWriteIdle_of_ne s v hn hm, toNat_regValue_regWriteIdle_self s v hn⟩

end Sys2Proof.Machine
end

section
/-! PROOFS. Rule R26: what a command computes on the way is the same in two states with the same inputs, and so its
outcome is.  The two states may list different bytes and date from different power-ons; only what an address reads as
is compared. -/

namespace Sys2Proof.Machine

/-- The same end of a command, on memories that read alike, is the same outcome. -/
theorem sameOutcome_finish {s t : State} (e : ErrKind) (r : Word) (hpix : ∀ a, s.byte .pix a = t.byte .pix a)
    (hpay : ∀ a, s.byte .pay a = t.byte .pay a) : (finish s e r).sameOutcome (finish t e r) where
  err := rfl
  result := rfl
  bytes sp a := by
    rw [State.byte_finish, State.byte_finish]
    cases sp with
    | pix => exact hpix a
    | pay => exact hpay a

/-! ### The operands -/

section
variable {s t : State} (h : s.sameInputs t)
include h

theorem State.sameInputs.gridWidth_eq : gridWidth s = gridWidth t := by
  rw [gridWidth, gridWidth, h.width]

theorem State.sameInputs.gridHeight_eq : gridHeight s = gridHeight t := by
  rw [gridHeight, gridHeight, h.height]

theorem State.sameInputs.dimsBad_eq : dimsBad s = dimsBad t := by
  rw [dimsBad, dimsBad, h.gridWidth_eq, h.gridHeight_eq]

theorem State.sameInputs.slotCount_eq : slotCount s = slotCount t := by
  rw [slotCount, slotCount, h.gridWidth_eq, h.gridHeight_eq]

theorem State.sameInputs.wholeBytes_eq : wholeBytes s = wholeBytes t := by
  rw [wholeBytes, wholeBytes, h.slotCount_eq]

theorem State.sameInputs.payloadLength_eq : payloadLength s = payloadLength t := by
  rw [payloadLength, payloadLength, h.payLen]

theorem State.sameInputs.bitsNeeded_eq : bitsNeeded s = bitsNeeded t := by
  rw [bitsNeeded, bitsNeeded, h.payloadLength_eq]

/-- The same accesses stay within the populated memory (R40). -/
theorem State.sameInputs.unpopulatedSpace_eq (n k : Nat) : unpopulatedSpace s n k = unpopulatedSpace t n k := by
  have hpix : s.pixPop = t.pixPop := h.pop .pix
  have hpay : s.payPop = t.payPop := h.pop .pay
  unfold unpopulatedSpace slotsPopulated payPopulated
  rw [h.alpha, hpix, hpay]

/-! ### The bit streams -/

theorem State.sameInputs.streamBit_eq (n : Nat) : streamBit s n = streamBit t n := by
  simp only [streamBit, streamByte, h.payloadLength_eq, h.bytes]

theorem State.sameInputs.slotBit_eq (n : Nat) : slotBit s n = slotBit t n := by
  rw [slotBit, slotBit, h.alpha, h.bytes]

theorem State.sameInputs.lsbByte_eq (k : Nat) : lsbByte s k = lsbByte t k :=
  lsbByte_congr fun _ _ => h.slotBit_eq _

/-- The test of rule R89 passes at the same bytes. -/
theorem State.sameInputs.matchAt_iff (k : Nat) : matchAt s k ↔ matchAt t k := by
  simp only [matchAt, h.lsbByte_eq]

theorem State.sameInputs.stopsAt_iff (k : Nat) : stopsAt s k ↔ stopsAt t k := by
  simp only [stopsAt, h.wholeBytes_eq, h.matchAt_iff]

/-! ### The loops -/

/-- EMBED's slot loop leaves the same byte at every address. -/
theorem State.sameInputs.writeSlots_read_eq (lands : Nat → Bool) (n a : Nat) :
    (writeSlots s lands n).read (Config.powerOnByte s.epoch .pix) a =
      (writeSlots t lands n).read (Config.powerOnByte t.epoch .pix) a := by
  induction n generalizing a with
  | zero => exact h.bytes .pix a
  | succ n ih =>
    simp only [writeSlots, h.alpha, h.streamBit_eq]
    split
    · simp only [Memory.read_put, ih]
    · exact ih a

/-- EXTRACT's slot loop leaves the same byte at every address, where it stores as many bytes. -/
theorem State.sameInputs.storeBytes_read_eq (n a : Nat) :
    (storeBytes s n).read (Config.powerOnByte s.epoch .pay) a =
      (storeBytes t n).read (Config.powerOnByte t.epoch .pay) a := by
  rw [storeBytes_read, storeBytes_read, h.lsbByte_eq, h.bytes]

/-- Where the scan of one state reads its whole grid, so does that of the other. -/
theorem State.sameInputs.scanGrid_eq_exhausted (hno : ∀ k < wholeBytes s, ¬ matchAt s k) :
    scanGrid t = .exhausted (storeBytes t (wholeBytes t)) := by
  apply scanGrid_exhausted
  intro k hk hm
  exact hno k (h.wholeBytes_eq ▸ hk) ((h.matchAt_iff k).2 hm)

/-- The two scans leave the populated memory alike: they stop at the same byte, or read the same whole grid. -/
theorem State.sameInputs.scanUnpopulated_eq : scanUnpopulated s = scanUnpopulated t := by
  unfold scanUnpopulated
  rcases scanGrid_cases s with ⟨k, hk, e⟩ | ⟨hno, e⟩
  · rw [e, scanGrid_found ((h.stopsAt_iff k).1 hk)]
    exact h.unpopulatedSpace_eq _ _
  · rw [e, h.scanGrid_eq_exhausted hno]
    simp only [Scan.slotsRead, Scan.bytesWritten, h.slotCount_eq, h.wholeBytes_eq]
    exact h.unpopulatedSpace_eq _ _

/-! ### The outcomes -/

/-- The same end of a command, where it has written no memory. -/
theorem State.sameInputs.finish_sameOutcome (e : ErrKind) (r : Word) : (finish s e r).sameOutcome (finish t e r) :=
  sameOutcome_finish e r (h.bytes .pix) (h.bytes .pay)

/-- The same end, where PIX has been replaced by memories that read alike. -/
theorem State.sameInputs.finish_setPix_sameOutcome {p q : Memory} (e : ErrKind) (r : Word)
    (hpq : ∀ a, p.read (Config.powerOnByte s.epoch .pix) a = q.read (Config.powerOnByte t.epoch .pix) a) :
    (finish { s with pix := p } e r).sameOutcome (finish { t with pix := q } e r) :=
  sameOutcome_finish e r hpq (h.bytes .pay)

/-- The same end, where PAY has been replaced by memories that read alike. -/
theorem State.sameInputs.finish_setPay_sameOutcome {p q : Memory} (e : ErrKind) (r : Word)
    (hpq : ∀ a, p.read (Config.powerOnByte s.epoch .pay) a = q.read (Config.powerOnByte t.epoch .pay) a) :
    (finish { s with pay := p } e r).sameOutcome (finish { t with pay := q } e r) :=
  sameOutcome_finish e r (h.bytes .pix) hpq

/-- However the scan ends, the outcomes agree: the two scans stop at the same byte, the bytes before it are the same,
and so is the UTF-8 test. -/
theorem State.sameInputs.endScan_sameOutcome :
    (endScan s (scanGrid s)).sameOutcome (endScan t (scanGrid t)) := by
  rcases scanGrid_cases s with ⟨k, hk, e⟩ | ⟨hno, e⟩
  · rw [e, scanGrid_found ((h.stopsAt_iff k).1 hk)]
    simp only [endScan, recovered_eq _ (k - 8) (k + 1) (by omega), funext h.lsbByte_eq]
    split
    · exact h.finish_setPay_sameOutcome _ _ (h.storeBytes_read_eq (k + 1))
    · exact h.finish_setPay_sameOutcome _ _ (h.storeBytes_read_eq (k + 1))
  · rw [e, h.scanGrid_eq_exhausted hno, ← h.wholeBytes_eq]
    exact h.finish_setPay_sameOutcome _ _ (h.storeBytes_read_eq (wholeBytes s))

/-! ### The commands -/

variable {s' : State}

theorem State.sameInputs.execCapacity_sameOutcome (e : execCapacity s = .next s') :
    ∃ t', execCapacity t = .next t' ∧ s'.sameOutcome t' := by
  unfold execCapacity at e ⊢
  rw [h.dimsBad_eq, h.wholeBytes_eq] at e
  split at e <;> cases e
  · exact ⟨_, if_pos ‹_›, h.finish_sameOutcome ..⟩
  · exact ⟨_, if_neg ‹_›, h.finish_sameOutcome ..⟩

theorem State.sameInputs.execEmbed_sameOutcome (e : execEmbed s = .next s') :
    ∃ t', execEmbed t = .next t' ∧ s'.sameOutcome t' := by
  unfold execEmbed at e ⊢
  rw [h.dimsBad_eq, h.slotCount_eq, h.bitsNeeded_eq, h.payloadLength_eq, h.unpopulatedSpace_eq] at e
  split at e
  · cases e
    exact ⟨_, if_pos ‹_›, h.finish_sameOutcome ..⟩
  rw [if_neg ‹_›]
  split at e
  · cases e
    exact ⟨_, if_pos ‹_›, h.finish_sameOutcome ..⟩
  rw [if_neg ‹_›]
  cases hpop : unpopulatedSpace t (bitsNeeded t) (payloadLength t) with
  | some sp => rw [hpop] at e; cases e
  | none =>
    rw [hpop] at e
    cases e
    exact ⟨_, rfl, h.finish_setPix_sameOutcome _ _ (h.writeSlots_read_eq _ _)⟩

theorem State.sameInputs.execExtract_sameOutcome (e : execExtract s = .next s') :
    ∃ t', execExtract t = .next t' ∧ s'.sameOutcome t' := by
  unfold execExtract at e ⊢
  rw [h.dimsBad_eq, h.scanUnpopulated_eq] at e
  split at e
  · cases e
    exact ⟨_, if_pos ‹_›, h.finish_sameOutcome ..⟩
  rw [if_neg ‹_›]
  cases hpop : scanUnpopulated t with
  | some sp => rw [hpop] at e; cases e
  | none =>
    rw [hpop] at e
    cases e
    exact ⟨_, rfl, h.endScan_sameOutcome⟩

end

/-- Settles O41: command by command, each test and each loop being the same in both states. -/
theorem outcomeIsAFunctionOfTheInputs : Obligations.OutcomeIsAFunctionOfTheInputs := by
  intro i s t s' h e
  cases i with
  | capacity => exact h.execCapacity_sameOutcome e
  | embed => exact h.execEmbed_sameOutcome e
  | extract => exact h.execExtract_sameOutcome e

end Sys2Proof.Machine
end

section
/-! PROOFS. The slots of a grid (`20_memory.md` R33, R34): where their addresses lie, and that a command accesses no
other byte of PIX.  A scan reads PIX through `slotBit` alone and EMBED's loop writes slot addresses alone, so replacing
the other bytes of PIX changes nothing that a command computes. -/

namespace Sys2Proof.Machine

/-! ### Slot addresses -/

/-- Without an alpha channel every byte of the grid is a slot (R33). -/
theorem slotAddr_false (n : Nat) : slotAddr false n = n := by
  have hb : bytesPerPixel false = 3 := rfl
  rw [slotAddr, hb]
  omega

/-- With one, a pixel's three slots stand in front of its alpha byte (R33). -/
theorem slotAddr_true (n : Nat) : slotAddr true n = 4 * (n / 3) + n % 3 := by
  have hb : bytesPerPixel true = 4 := rfl
  rw [slotAddr, hb, Nat.mul_comm]

/-- The bound of R33; it is tight with an alpha channel, whose last byte is no slot. -/
theorem slotAddr_le_int (s : State) (hg : legalGrid s) {n : Nat} (hn : n < slotCount s) :
    (slotAddr s.alpha n : Int) ≤ gridWidth s * gridHeight s * 4 - 2 := by
  have hpos := pixels_pos s hg
  rw [slotCount_eq] at hn
  cases s.alpha with
  | false => rw [slotAddr_false]; omega
  | true => rw [slotAddr_true]; omega

/-- Settles O19: the closed form for each pixel format, and the laws of slot addresses. -/
theorem slotAddressesAreDistinctAndInTheGrid : Obligations.SlotAddressesAreDistinctAndInTheGrid := by
  refine ⟨slotAddr_false, fun n => ⟨slotAddr_true n, ?_⟩, fun al _ _ => slotAddr_injective al, ?_⟩
  · rw [slotAddr_true]
    omega
  · intro s hg n hn
    exact ⟨slotAddr_lt_gridBytes s hn, slotAddr_le_int s hg hn, slotAddr_lt_word s hg hn⟩

/-! ### What a command on a legal grid answers -/

theorem execCapacity_next_iff {s s' : State} (hg : legalGrid s) :
    execCapacity s = .next s' ↔ s' = finish s .none (BitVec.ofNat 32 (wholeBytes s)) := by
  rw [← dimsBad_eq_false_iff] at hg
  simp [execCapacity, hg, eq_comm]

theorem execEmbed_next_iff {s s' : State} (hg : legalGrid s) :
    execEmbed s = .next s' ↔
      slotCount s < bitsNeeded s ∧ s' = finish s .capacityExceeded 0 ∨
      bitsNeeded s ≤ slotCount s ∧ unpopulatedSpace s (bitsNeeded s) (payloadLength s) = none ∧
        s' = finish { s with pix := writeSlots s (fun _ => true) (bitsNeeded s) } .none
          (BitVec.ofNat 32 (bitsNeeded s)) := by
  rw [← dimsBad_eq_false_iff] at hg
  by_cases hover : slotCount s < bitsNeeded s
  · simp [execEmbed, hg, hover, Nat.not_le_of_lt hover, eq_comm]
  · have hfit := Nat.le_of_not_lt hover
    cases hpop : unpopulatedSpace s (bitsNeeded s) (payloadLength s) <;>
      simp [execEmbed, hg, hover, hfit, hpop, eq_comm]

theorem execExtract_next_iff {s s' : State} (hg : legalGrid s) :
    execExtract s = .next s' ↔ scanUnpopulated s = none ∧ s' = endScan s (scanGrid s) := by
  rw [← dimsBad_eq_false_iff] at hg
  cases hpop : scanUnpopulated s <;> simp [execExtract, hg, hpop, eq_comm]

/-! What the end of a scan does to PIX. -/

theorem endScan_setPix (s : State) (p : Memory) (sc : Scan) :
    endScan { s with pix := p } sc = { endScan s sc with pix := p } := by
  cases sc with
  | found n pay => simp only [endScan, apply_ite (fun t : State => { t with pix := p })]; rfl
  | exhausted pay => rfl

theorem endScan_pix (s : State) (sc : Scan) : (endScan s sc).pix = s.pix := by
  cases sc with
  | found n pay => simp [endScan, apply_ite State.pix]
  | exhausted pay => rfl

theorem endScan_epoch (s : State) (sc : Scan) : (endScan s sc).epoch = s.epoch := by
  cases sc with
  | found n pay => simp [endScan, apply_ite State.epoch]
  | exhausted pay => rfl

/-! ### Another PIX with the same slots -/

/-- What R34 asks of a command that has gone from `s` to `s'`, and from `s` with PIX replaced by `p` to `t'`: the end
states differ in PIX alone, they read alike in every slot, and every other byte is still that of `p`. -/
structure AccessedSlotsOnly (s s' : State) (p : Memory) (t' : State) : Prop where
  elsewhere : t' = { s' with pix := t'.pix }
  slots : ∀ n < slotCount s, t'.byte .pix (slotAddr s.alpha n) = s'.byte .pix (slotAddr s.alpha n)
  others : ∀ a, (∀ n < slotCount s, a ≠ slotAddr s.alpha n) →
    t'.byte .pix a = ({ s with pix := p } : State).byte .pix a

section
variable {s s' : State} {p : Memory}
  (hslots : ∀ n < slotCount s,
    ({ s with pix := p } : State).byte .pix (slotAddr s.alpha n) = s.byte .pix (slotAddr s.alpha n))
include hslots

/-- A slot of the grid yields the same bit. -/
theorem slotBit_setPix {n : Nat} (hn : n < slotCount s) : slotBit { s with pix := p } n = slotBit s n :=
  congrArg (·.getLsbD 0) (hslots n hn)

/-- A scan inside the grid goes the same way, and stores the same bytes. -/
theorem scanFrom_setPix (fuel n : Nat) (acc : Byte) (pay : Memory) (hn : n + fuel ≤ slotCount s) :
    scanFrom { s with pix := p } fuel n acc pay = scanFrom s fuel n acc pay := by
  induction fuel generalizing n acc pay with
  | zero => rfl
  | succ fuel ih =>
    have hbit := slotBit_setPix hslots (show n < slotCount s by omega)
    simp only [scanFrom, hbit, ih _ _ _ (show n + 1 + fuel ≤ slotCount s by omega)]

theorem scanGrid_setPix : scanGrid { s with pix := p } = scanGrid s :=
  scanFrom_setPix hslots (slotCount s) 0 0 s.pay (by omega)

/-- EMBED's loop leaves the same byte in every slot, whether it writes the slot or not. -/
theorem writeSlots_setPix_read_slot (m : Nat) {n : Nat} (hn : n < slotCount s) :
    (writeSlots { s with pix := p } (fun _ => true) m).read (Config.powerOnByte s.epoch .pix) (slotAddr s.alpha n) =
      (writeSlots s (fun _ => true) m).read (Config.powerOnByte s.epoch .pix) (slotAddr s.alpha n) := by
  by_cases h : n < m
  · have hs := writeSlots_read_slot s (fun _ => true) m n h
    have ht := writeSlots_read_slot { s with pix := p } (fun _ => true) m n h
    rw [hslots n hn] at ht
    exact ht.trans hs.symm
  · have hfree : ∀ i < m, slotAddr s.alpha n ≠ slotAddr s.alpha i := fun i hi e => by
      have := slotAddr_injective _ e
      omega
    have hs := writeSlots_read_other s (fun _ => true) m _ hfree
    have ht := writeSlots_read_other { s with pix := p } (fun _ => true) m _ hfree
    exact ht.trans ((hslots n hn).trans hs.symm)

/-- A command that leaves PIX alone does so on the other PIX too. -/
theorem accessedSlotsOnly_of_pix_eq (hpix : s'.pix = s.pix) (hepoch : s'.epoch = s.epoch) :
    AccessedSlotsOnly s s' p { s' with pix := p } where
  elsewhere := rfl
  slots n hn := by
    rw [State.byte_setPix_pix, State.byte_pix, hpix, hepoch]
    exact hslots n hn
  others a _ := by rw [State.byte_setPix_pix, State.byte_setPix_pix, hepoch]

/-- EMBED's loop writes slots alone. -/
theorem accessedSlotsOnly_writeSlots {m : Nat} (hm : m ≤ slotCount s) (e : ErrKind) (r : Word) :
    AccessedSlotsOnly s (finish { s with pix := writeSlots s (fun _ => true) m } e r) p
      (finish { s with pix := writeSlots { s with pix := p } (fun _ => true) m } e r) where
  elsewhere := rfl
  slots n hn := by
    rw [State.byte_finish, State.byte_finish]
    exact writeSlots_setPix_read_slot hslots m hn
  others a ha := by
    rw [State.byte_finish]
    exact writeSlots_read_other { s with pix := p } _ m a fun i hi => ha i (by omega)

/-- Each command reads PIX in the slots alone, so on the other PIX its tests, its scan and its stream are the same. -/
theorem exec_setPix {i : Instr} (hg : legalGrid s) (e : exec i s = .next s') :
    ∃ t', exec i { s with pix := p } = .next t' ∧ AccessedSlotsOnly s s' p t' := by
  have hg' : legalGrid { s with pix := p } := hg
  cases i with
  | capacity =>
    obtain rfl := (execCapacity_next_iff hg).1 e
    exact ⟨_, (execCapacity_next_iff hg').2 rfl, accessedSlotsOnly_of_pix_eq hslots rfl rfl⟩
  | embed =>
    rcases (execEmbed_next_iff hg).1 e with ⟨hover, rfl⟩ | ⟨hfit, hpop, rfl⟩
    · exact ⟨_, (execEmbed_next_iff hg').2 (.inl ⟨hover, rfl⟩), accessedSlotsOnly_of_pix_eq hslots rfl rfl⟩
    · exact ⟨_, (execEmbed_next_iff hg').2 (.inr ⟨hfit, hpop, rfl⟩), accessedSlotsOnly_writeSlots hslots hfit _ _⟩
  | extract =>
    obtain ⟨hpop, rfl⟩ := (execExtract_next_iff hg).1 e
    have hscan : scanGrid { s with pix := p } = scanGrid s := scanGrid_setPix hslots
    have hpop' : scanUnpopulated { s with pix := p } = none := by
      rw [scanUnpopulated, hscan]
      exact hpop
    refine ⟨_, (execExtract_next_iff hg').2 ⟨hpop', rfl⟩, ?_⟩
    rw [hscan, endScan_setPix s p]
    exact accessedSlotsOnly_of_pix_eq hslots (endScan_pix s _) (endScan_epoch s _)

end

/-- Settles O42: whatever PIX holds outside the slots, each command ends the same way and leaves it alone. -/
theorem bytesOutsideTheSlotsAreNeverAccessed : Obligations.BytesOutsideTheSlotsAreNeverAccessed := by
  intro i s s' p e hg hslots
  obtain ⟨t', he, ht⟩ := exec_setPix hslots hg e
  refine ⟨t', he, ?_, ?_, fun a => ?_, ht.slots, ht.others⟩ <;> rw [ht.elsewhere]
  rfl

end Sys2Proof.Machine
end

section
/-! PROOFS. What a command reaches (`20_memory.md` R39), and that this alone decides whether it completes (R40, R123). -/

namespace Sys2Proof.Machine

/-! ### The reach of each command -/

theorem dimsBad_eq_true_iff (s : State) : dimsBad s = true ↔ ¬ legalGrid s := by
  rw [← dimsBad_eq_false_iff, Bool.not_eq_false]

/-- A command that reads no grid reaches nothing. -/
theorem reached_eq_zero {i : Instr} {s : State} (h : i = .capacity ∨ ¬ legalGrid s) :
    slotsReached i s = 0 ∧ bytesReached i s = 0 := by
  rw [← dimsBad_eq_true_iff] at h
  cases i with
  | capacity => exact ⟨rfl, rfl⟩
  | embed | extract =>
    have hbad : dimsBad s = true := h.resolve_left nofun
    simp [slotsReached, bytesReached, hbad]

/-- EMBED that raises CapacityExceeded reaches nothing (R77). -/
theorem embed_reached_of_over {s : State} (hover : slotCount s < bitsNeeded s) :
    slotsReached .embed s = 0 ∧ bytesReached .embed s = 0 := by
  simp [slotsReached, bytesReached, hover]

section
variable {s : State} (hg : legalGrid s)
include hg

/-- EMBED that passes its tests reaches its whole stream (R75). -/
theorem embed_reached_of_fits (hfit : bitsNeeded s ≤ slotCount s) :
    slotsReached .embed s = bitsNeeded s ∧ bytesReached .embed s = payloadLength s := by
  simp [slotsReached, bytesReached, (dimsBad_eq_false_iff s).2 hg, Nat.not_lt_of_le hfit]

/-- EXTRACT reaches what its scan reads and completes. -/
theorem extract_reached :
    slotsReached .extract s = (scanGrid s).slotsRead s ∧ bytesReached .extract s = (scanGrid s).bytesWritten s := by
  simp [slotsReached, bytesReached, (dimsBad_eq_false_iff s).2 hg]

/-- A scan that stops has read every slot up to the delimiter's last, and no further (R90). -/
theorem extract_reached_of_stopsAt {k : Nat} (hk : stopsAt s k) :
    slotsReached .extract s = 8 * (k + 1) ∧ bytesReached .extract s = k + 1 := by
  obtain ⟨hslots, hbytes⟩ := extract_reached hg
  have hdelim : 8 ≤ k := hk.2.1.1
  rw [hslots, hbytes, scanGrid_found hk]
  simp only [Scan.slotsRead, Scan.bytesWritten, delimLength]
  omega

/-- A scan without a match has read the whole grid (R94). -/
theorem extract_reached_of_noMatch (hno : ∀ k < wholeBytes s, ¬ matchAt s k) :
    slotsReached .extract s = slotCount s ∧ bytesReached .extract s = wholeBytes s := by
  obtain ⟨hslots, hbytes⟩ := extract_reached hg
  rw [hslots, hbytes, scanGrid_exhausted hno]
  exact ⟨rfl, rfl⟩

end

/-- Settles O60: by each command's tests, and for EXTRACT by where its scan ends. -/
theorem commandsReachTheirSlotsAndBytes : Obligations.CommandsReachTheirSlotsAndBytes := by
  intro s
  exact ⟨fun i => reached_eq_zero, fun hg => ⟨embed_reached_of_fits hg, embed_reached_of_over,
    fun k => extract_reached_of_stopsAt hg, extract_reached_of_noMatch hg⟩⟩

/-! ### The reach decides -/

/-- EMBED reaches no slot above the grid, and no byte above the payload. -/
theorem embed_reached_le (s : State) :
    slotsReached .embed s ≤ slotCount s ∧ bytesReached .embed s ≤ payloadLength s := by
  by_cases h : legalGrid s ∧ bitsNeeded s ≤ slotCount s
  · simpa [embed_reached_of_fits h.1 h.2] using h.2
  · rw [not_and_or, Nat.not_le] at h
    rcases h with hbad | hover
    · simp [reached_eq_zero (i := .embed) (.inr hbad)]
    · simp [embed_reached_of_over hover]

/-- EXTRACT reaches no slot above the grid, and no byte above its whole bytes. -/
theorem extract_reached_le (s : State) :
    slotsReached .extract s ≤ slotCount s ∧ bytesReached .extract s ≤ wholeBytes s := by
  by_cases hg : legalGrid s
  · rcases scanGrid_cases s with ⟨k, hk, -⟩ | ⟨hno, -⟩
    · obtain ⟨hslots, hbytes⟩ := extract_reached_of_stopsAt hg hk
      have hwhole : k < slotCount s / 8 := hk.1
      rw [hslots, hbytes, wholeBytes]
      omega
    · simp [extract_reached_of_noMatch hg hno]
  · simp [reached_eq_zero (i := .extract) (.inr hg)]

/-- What the premise `populated` populates covers all that the command reaches. -/
theorem reached_populated {i : Instr} {s : State} (h : populatedFor i s) :
    unpopulatedSpace s (slotsReached i s) (bytesReached i s) = none := by
  rw [unpopulatedSpace_eq_none_iff]
  cases i with
  | capacity => exact ⟨nofun, Nat.zero_le _⟩
  | embed =>
    obtain ⟨hpix, hpay⟩ := h
    obtain ⟨hslots, hbytes⟩ := embed_reached_le s
    exact ⟨slots_populated_of_grid s hpix hslots, hbytes.trans hpay⟩
  | extract =>
    obtain ⟨hpix, hpay⟩ := h
    obtain ⟨hslots, hbytes⟩ := extract_reached_le s
    exact ⟨slots_populated_of_grid s hpix hslots, hbytes.trans hpay⟩

/-- Which space a refusal names, and what the command would reach there. -/
theorem unpopulatedSpace_eq_some {s : State} {n k : Nat} {sp : Space} (h : unpopulatedSpace s n k = some sp) :
    (sp = .pix ∧ ∃ m < n, s.pixPop ≤ slotAddr s.alpha m) ∨ (sp = .pay ∧ s.payPop < k) := by
  unfold unpopulatedSpace at h
  split at h
  · cases h
    have hslots : ¬ slotsPopulated s n = true := by simp [*]
    rw [slotsPopulated_iff] at hslots
    push Not at hslots
    exact .inl ⟨rfl, hslots⟩
  · split at h <;> cases h
    exact .inr ⟨rfl, by simpa [payPopulated] using ‹payPopulated s k = false›⟩

/-- A command completes where all it reaches is populated, and else it is refused. -/
theorem exec_by_reach (i : Instr) (s : State) :
    (unpopulatedSpace s (slotsReached i s) (bytesReached i s) = none ∧
      ∃ t, exec i s = .next t ∧ t.done = true ∧ t.busy = false) ∨
    (i ≠ .capacity ∧ legalGrid s ∧ ∃ sp, unpopulatedSpace s (slotsReached i s) (bytesReached i s) = some sp ∧
      exec i s = .refused (.commandUnpopulated sp)) := by
  have hnone : ∀ {n k}, n = 0 ∧ k = 0 → unpopulatedSpace s n k = none := fun ⟨hn, hk⟩ => by
    simp [hn, hk, unpopulatedSpace_eq_none_iff]
  cases i with
  | capacity =>
    refine .inl ⟨hnone ⟨rfl, rfl⟩, ?_⟩
    rcases execCapacity_cases s with ⟨-, e⟩ | ⟨-, e⟩ <;> exact ⟨_, e, rfl, rfl⟩
  | embed =>
    rcases execEmbed_cases s with ⟨hd, e⟩ | ⟨hg, hover, e⟩ | ⟨hg, hfit, sp, hpop, e⟩ | ⟨hg, hfit, hpop, e⟩
    · exact .inl ⟨hnone (reached_eq_zero (.inr ((dimsBad_eq_true_iff s).1 hd))), _, e, rfl, rfl⟩
    · exact .inl ⟨hnone (embed_reached_of_over hover), _, e, rfl, rfl⟩
    · obtain ⟨hslots, hbytes⟩ := embed_reached_of_fits hg hfit
      rw [hslots, hbytes]
      exact .inr ⟨nofun, hg, sp, hpop, e⟩
    · obtain ⟨hslots, hbytes⟩ := embed_reached_of_fits hg hfit
      rw [hslots, hbytes]
      exact .inl ⟨hpop, _, e, rfl, rfl⟩
  | extract =>
    by_cases hg : legalGrid s
    · obtain ⟨hslots, hbytes⟩ := extract_reached hg
      rw [hslots, hbytes]
      rcases execExtract_cases s with ⟨hd, e⟩ | ⟨-, sp, hpop, e⟩ | ⟨-, hpop, k, -, -, e⟩ | ⟨-, hpop, k, -, -, e⟩ |
        ⟨-, hpop, -, e⟩
      · exact absurd hg ((dimsBad_eq_true_iff s).1 hd)
      · exact .inr ⟨nofun, hg, sp, hpop, e⟩
      all_goals exact .inl ⟨hpop, _, e, rfl, rfl⟩
    · exact .inl ⟨hnone (reached_eq_zero (.inr hg)), _, if_pos ((dimsBad_eq_true_iff s).2 hg), rfl, rfl⟩

/-- Where all a command reaches is populated, it completes. -/
theorem exec_completes {i : Instr} {s : State}
    (h : unpopulatedSpace s (slotsReached i s) (bytesReached i s) = none) :
    ∃ t, exec i s = .next t ∧ t.done = true ∧ t.busy = false := by
  rcases exec_by_reach i s with ⟨-, ht⟩ | ⟨-, -, sp, hsome, -⟩
  · exact ht
  · rw [h] at hsome
    cases hsome

/-- A refusal names the space in which the command would reach an address that is not populated. -/
theorem exec_refused {i : Instr} {s : State} {r : Refusal} (h : exec i s = .refused r) :
    i ≠ .capacity ∧ legalGrid s ∧
      (r = .commandUnpopulated .pix ∧ (∃ n < slotsReached i s, s.pixPop ≤ slotAddr s.alpha n) ∨
        r = .commandUnpopulated .pay ∧ s.payPop < bytesReached i s) := by
  rcases exec_by_reach i s with ⟨-, t, e, -⟩ | ⟨hi, hg, sp, hpop, e⟩ <;> rw [h] at e <;> cases e
  refine ⟨hi, hg, ?_⟩
  rcases unpopulatedSpace_eq_some hpop with ⟨rfl, hslot⟩ | ⟨rfl, hbytes⟩
  · exact .inl ⟨rfl, hslot⟩
  · exact .inr ⟨rfl, hbytes⟩

/-- Settles O44: a command is refused exactly where it reaches an address that is not populated. -/
theorem populatedCommandsComplete : Obligations.PopulatedCommandsComplete := by
  intro i s
  refine ⟨fun hpop => exec_completes (reached_populated hpop), fun hslots hbytes => ?_, fun r => exec_refused,
    exec_ne_fault i s⟩
  exact exec_completes ((unpopulatedSpace_eq_none_iff s _ _).2 ⟨hslots, hbytes⟩)

end Sys2Proof.Machine
end

section
/-! PROOFS. The schedule (`40_command_issue.md` R66, R69).  A run of an orderly host has a meaning that no schedule enters:
complete the command in execution, if there is one, and then take the rest of the script with every command completed as
soon as it is accepted.  Each step keeps that meaning, because in the window a host that keeps the premises only reads
registers, and at rest it is the block itself. -/

namespace Sys2Proof.Machine

/-! ### The block, without the host's side -/

/-- The state without what the host brings and what it has read. -/
def State.block (s : State) : State := { s with script := [], turns := [], seen := [] }

/-- What `sameBlock` compares is a part of it. -/
theorem sameBlock_of_block_eq {s t : State} (h : s.block = t.block) : s.sameBlock t :=
  have hblock : s.block.sameBlock t.block := h ▸ ⟨rfl, rfl, rfl, rfl, rfl, rfl, rfl, rfl, rfl, rfl, rfl⟩
  { hblock with }

/-- The block an outcome leaves, if it leaves one. -/
def leftBlock : Host.Outcome State Fault Refusal → Option State
  | .next t => some t.block
  | .fault _ => none
  | .refused _ => none

@[simp] theorem leftBlock_next (t : State) : leftBlock (.next t) = some t.block := rfl

/-! ### Commands work on the block -/

@[simp] theorem dimsBad_block (s : State) : dimsBad s.block = dimsBad s := rfl
@[simp] theorem slotCount_block (s : State) : slotCount s.block = slotCount s := rfl
@[simp] theorem payloadLength_block (s : State) : payloadLength s.block = payloadLength s := rfl
@[simp] theorem bitsNeeded_block (s : State) : bitsNeeded s.block = bitsNeeded s := rfl
@[simp] theorem slotBit_block (s : State) (n : Nat) : slotBit s.block n = slotBit s n := rfl
@[simp] theorem unpopulatedSpace_block (s : State) (n k : Nat) :
    unpopulatedSpace s.block n k = unpopulatedSpace s n k := rfl

theorem writeSlots_block (s : State) (lands : Nat → Bool) (n : Nat) :
    writeSlots s.block lands n = writeSlots s lands n := by
  induction n with
  | zero => rfl
  | succ n ih => rw [writeSlots, writeSlots, ih]; rfl

theorem scanFrom_block (s : State) (fuel n : Nat) (acc : Byte) (pay : Memory) :
    scanFrom s.block fuel n acc pay = scanFrom s fuel n acc pay := by
  induction fuel generalizing n acc pay with
  | zero => rfl
  | succ fuel ih => simp only [scanFrom, slotBit_block, ih]; rfl

theorem scanGrid_block (s : State) : scanGrid s.block = scanGrid s := scanFrom_block s (slotCount s) 0 0 s.pay

theorem scanUnpopulated_block (s : State) : scanUnpopulated s.block = scanUnpopulated s := by
  rw [scanUnpopulated, scanUnpopulated, scanGrid_block]
  cases scanGrid s <;> rfl

theorem endScan_block (s : State) (sc : Scan) : (endScan s.block sc).block = (endScan s sc).block := by
  cases sc with
  | found n pay => simp only [endScan, apply_ite State.block]; rfl
  | exhausted pay => rfl

/-- A command leaves the same block, whatever the host's side of the state holds. -/
theorem leftBlock_exec_block (i : Instr) (s : State) : leftBlock (exec i s.block) = leftBlock (exec i s) := by
  cases i with
  | capacity =>
    simp only [exec, execCapacity, apply_ite leftBlock]
    rfl
  | embed =>
    simp only [exec, execEmbed, apply_ite leftBlock, dimsBad_block, slotCount_block, bitsNeeded_block,
      payloadLength_block, unpopulatedSpace_block, writeSlots_block]
    cases unpopulatedSpace s (bitsNeeded s) (payloadLength s) <;> rfl
  | extract =>
    simp only [exec, execExtract, apply_ite leftBlock, dimsBad_block, scanGrid_block, scanUnpopulated_block]
    cases scanUnpopulated s with
    | some sp => rfl
    | none => simp only [leftBlock_next, endScan_block]; rfl

theorem leftBlock_engineAct_block (s : State) : leftBlock (engineAct s.block) = leftBlock (engineAct s) := by
  rw [engineAct, engineAct, show s.block.op = s.op from rfl]
  cases opInstr s.op with
  | some i => exact leftBlock_exec_block i s
  | none => rfl

/-- A command that completes leaves the block idle, and the host's script as it was. -/
theorem engineAct_next {s t : State} (e : engineAct s = .next t) : t.busy = false ∧ t.script = s.script := by
  unfold engineAct at e
  split at e
  · obtain ⟨p, q, err, r, rfl, -⟩ := exec_next e
    exact ⟨rfl, rfl⟩
  · cases e

/-! ### Host actions work on the block -/

theorem regWriteIdle_block (s : State) (n : Nat) (v : Word) :
    (regWriteIdle s.block n v).block = (regWriteIdle s n v).block := by
  match n with
  | 0 =>
    simp only [regWriteIdle, issue]
    cases decode v <;> rfl
  | 1 | 2 | 3 | 4 | 5 | _ + 6 => rfl

theorem regWrite_script (s : State) (n : Nat) (v : Word) : (regWrite s n v).script = s.script := by
  rcases regWrite_cases s n v with ⟨-, e⟩ | ⟨-, hn, e⟩ | ⟨-, -, -, e⟩ | ⟨-, -, i, -, e⟩ <;> rw [e]
  · exact regWriteIdle_script s n v hn
  · rfl

/-- An action on an idle block leaves the same block, whatever the host's side of the state holds. -/
theorem leftBlock_hostAct_block {s : State} (hb : s.busy = false) (a : HostStep) :
    leftBlock (hostAct s.block a) = leftBlock (hostAct s a) := by
  have hb' : s.block.busy = false := hb
  cases a with
  | regRead n => rfl
  | regWrite n v => simp [hostAct, regWrite, hb, hb', regWriteIdle_block]
  | memRead sp a =>
    have hpop : s.block.pop sp = s.pop sp := by cases sp <;> rfl
    simp only [hostAct, hostMemRead, hb, hb', hpop, apply_ite leftBlock]
    rfl
  | memWrite sp a v =>
    cases sp <;> simp only [hostAct, hostMemWrite, hb, hb', apply_ite leftBlock] <;> rfl
  | wait =>
    simp only [hostAct, leftBlock_next, hostWait, apply_ite State.block]
    rfl
  | reset =>
    rw [hostAct_reset_idle hb, hostAct_reset_idle hb']
    rfl
  | powerCycle => rfl

/-- An action other than a pending `WAIT` leaves the rest of the script. -/
theorem hostAct_script {s t : State} {a : HostStep} (ha : a ≠ .wait) (e : hostAct s a = .next t) :
    t.script = s.script := by
  cases a with
  | regRead n => cases e; rfl
  | regWrite n v => cases e; exact regWrite_script s n v
  | memRead sp a =>
    obtain ⟨-, -, rfl⟩ := hostMemRead_next e
    rfl
  | memWrite sp a v =>
    obtain ⟨-, -, rfl⟩ := hostMemWrite_next e
    exact State.putByte_script s sp a.toNat v
  | wait => exact absurd rfl ha
  | reset =>
    obtain ⟨p, q, d, rfl, -⟩ := hostReset_next e
    rfl
  | powerCycle => cases e; rfl

/-! ### The meaning of a run -/

/-- The block once its command, if it is running one, has completed. -/
def settled (s : State) : Option State := if s.busy then leftBlock (engineAct s) else some s.block

/-- What the host's action `a` makes of the idle block `b`, a command it starts being completed at once.  A register read
leaves the block; a `WAIT` does too, and ends only where `DONE = 1`. -/
def eagerAct (b : State) : HostStep → Option State
  | .regRead _ => some b
  | .wait => if b.done then some b else none
  | a => (leftBlock (hostAct b a)).bind settled

/-- What a whole script makes of the idle block `b`. -/
def eagerRun : List HostStep → State → Option State
  | [], b => some b
  | a :: as, b => (eagerAct b a).bind (eagerRun as)

/-- What the run from `s` leaves once it is at rest, under every schedule that keeps the premises. -/
def meaning (s : State) : Option State := (settled s).bind (eagerRun s.script)

theorem settled_idle {s : State} (hb : s.busy = false) : settled s = some s.block := by simp [settled, hb]

theorem settled_busy {s : State} (hb : s.busy = true) : settled s = leftBlock (engineAct s) := by simp [settled, hb]

theorem settled_block (s : State) : settled s.block = settled s := by
  cases hb : s.busy
  · rw [settled_idle hb, settled_idle (s := s.block) hb]
    rfl
  · rw [settled_busy hb, settled_busy (s := s.block) hb, leftBlock_engineAct_block]

theorem settled_congr {s t : State} (h : s.block = t.block) : settled s = settled t := by
  rw [← settled_block s, h, settled_block]

theorem meaning_congr {s t : State} (h : s.block = t.block) (hs : s.script = t.script) : meaning s = meaning t := by
  rw [meaning, meaning, settled_congr h, hs]

/-- At rest the meaning of a run is the block it has left. -/
theorem meaning_atRest {s : State} (h : s.atRest) : meaning s = some s.block := by
  obtain ⟨hb, hs⟩ := h
  rw [meaning, settled_idle hb, hs]
  rfl

/-- The engine's completion settles the block. -/
theorem meaning_engineAct {s t : State} (hb : s.busy = true) (e : engineAct s = .next t) : meaning t = meaning s := by
  obtain ⟨hidle, hs⟩ := engineAct_next e
  rw [meaning, meaning, settled_idle hidle, settled_busy hb, e, hs]
  rfl

/-- The state before the host takes action `a`, whose taking off the script leaves `s`. -/
def State.before (s : State) (a : HostStep) : State := { s with script := a :: s.script }

/-- What is left to do before action `a`. -/
theorem meaning_before (s : State) (a : HostStep) :
    meaning (s.before a) = (settled s).bind fun b => (eagerAct b a).bind (eagerRun s.script) := by
  rw [meaning, settled_congr (s := s.before a) (t := s) rfl]
  rfl

/-- A register read, in either phase. -/
theorem meaning_regRead (s : State) (n : Nat) :
    meaning (hostRegRead s n) = meaning (s.before (.regRead n)) := by
  rw [meaning_before, meaning, settled_congr (s := hostRegRead s n) (t := s) rfl]
  rfl

/-- A `WAIT`, in either phase: it stays, or it ends where a command has completed. -/
theorem meaning_wait {s : State} (hidle : s.done = true → s.busy = false) :
    meaning (hostWait s) = meaning (s.before .wait) := by
  by_cases hd : s.done = true
  · have hdone : s.block.done = true := hd
    have hread : settled (hostRegRead s 1) = some s.block := settled_idle (s := hostRegRead s 1) (hidle hd)
    rw [hostWait_done hd, meaning_before, settled_idle (hidle hd), Option.bind_some, eagerAct,
      if_pos hdone, meaning, hread]
    rfl
  · rw [hostWait_pending (Bool.eq_false_iff.2 hd)]
    exact meaning_congr rfl rfl

/-- An action on the idle block whose meaning is read off the model's own action. -/
theorem meaning_hostAct_idle {s t : State} {a : HostStep} (hb : s.busy = false)
    (heager : ∀ b, eagerAct b a = (leftBlock (hostAct b a)).bind settled) (ha : a ≠ .wait) (e : hostAct s a = .next t) :
    meaning t = meaning (s.before a) := by
  rw [meaning_before, settled_idle hb, Option.bind_some, heager, leftBlock_hostAct_block hb, e, leftBlock_next,
    Option.bind_some, settled_block, meaning, hostAct_script ha e]

/-! ### Every step of an orderly run keeps it -/

/-- A block is busy only while the window is open, and then `DONE` is 0. -/
def BusyInWindow (owed : Bool) (s : State) : Prop := s.busy = true → owed = true ∧ s.done = false

theorem busyInWindow_idle {owed : Bool} {s : State} (hb : s.busy = false) : BusyInWindow owed s := by
  simp [BusyInWindow, hb]

/-- Only a legal word decodes (R46, R50). -/
theorem legalWord_of_decode {v : Word} {i : Instr} (h : decode v = .ok i) : legalWord v = true := by
  unfold decode at h
  split at h
  · rename_i hv; subst hv; decide
  · split at h
    · rename_i hv; subst hv; decide
    · split at h
      · rename_i hv; subst hv; decide
      · cases h

/-- A register write opens the window if it starts a command. -/
theorem busyInWindow_regWrite {owed : Bool} {s : State} (h : BusyInWindow owed s) (n : Nat) (v : Word) :
    BusyInWindow (owedBy owed s (.regWrite n v)) (regWrite s n v) := by
  rcases regWrite_cases s n v with ⟨hb, e⟩ | ⟨hb, hn, e⟩ | ⟨hb, -, -, e⟩ | ⟨hb, rfl, i, hd, e⟩ <;> rw [e]
  · obtain ⟨howed, hdone⟩ := h hb
    exact fun _ => ⟨by simp [owedBy, howed], hdone⟩
  · exact busyInWindow_idle ((regWriteIdle_busy s n v hn).trans hb)
  · exact busyInWindow_idle rfl
  · exact fun _ => ⟨by simp [owedBy, hb, legalWord_of_decode hd], rfl⟩

/-- Every action of the host keeps it. -/
theorem busyInWindow_hostAct {owed : Bool} {s t : State} {a : HostStep} (h : BusyInWindow owed s)
    (e : hostAct s a = .next t) : BusyInWindow (owedBy owed s a) t := by
  cases a with
  | regRead n =>
    cases e
    exact fun hb => ⟨by simp [owedBy, h hb], (h hb).2⟩
  | regWrite n v => cases e; exact busyInWindow_regWrite h n v
  | memRead sp a =>
    obtain ⟨hb, -, rfl⟩ := hostMemRead_next e
    exact busyInWindow_idle hb
  | memWrite sp a v =>
    obtain ⟨hb, -, rfl⟩ := hostMemWrite_next e
    exact busyInWindow_idle ((State.putByte_busy s sp a.toNat v).trans hb)
  | wait =>
    cases e
    cases hd : s.done
    · rw [hostWait_pending hd]
      exact fun hb => ⟨by simp [owedBy, hd, h hb], hd⟩
    · rw [hostWait_done hd]
      exact fun hb => absurd (h hb).2 (by simp [hd])
  | reset =>
    obtain ⟨p, q, d, rfl, -⟩ := hostReset_next e
    exact busyInWindow_idle rfl
  | powerCycle => cases e; exact busyInWindow_idle rfl

/-- What the premises let the host do. -/
theorem meaning_hostAct {owed : Bool} {s t : State} {a : HostStep} (h : BusyInWindow owed s)
    (hallowed : allowed owed s a = true) (e : hostAct s a = .next t) :
    meaning t = meaning (s.before a) := by
  have hclosed : (!owed) = true → s.busy = false := fun ho =>
    Bool.eq_false_iff.2 fun hb => by simp [h hb] at ho
  cases a with
  | regRead n => cases e; exact meaning_regRead s n
  | wait =>
    cases e
    exact meaning_wait fun hd => Bool.eq_false_iff.2 fun hb => by simp [h hb] at hd
  | regWrite | memRead | memWrite => exact meaning_hostAct_idle (hclosed hallowed) (fun _ => rfl) nofun e
  | reset | powerCycle => exact meaning_hostAct_idle (by simpa [allowed] using hallowed) (fun _ => rfl) nofun e

/-- One step that keeps the premises. -/
theorem meaning_step {owed : Bool} {s t : State} (h : BusyInWindow owed s) (hallowed : stepAllowed owed s = true)
    (e : step s = .next t) : BusyInWindow (owedAfter owed s) t ∧ meaning t = meaning s := by
  rcases step_window_cases owed s with ⟨hb, -, hstep, -, -⟩ | ⟨a, as, ts, hs, -, hstep, hallow, howed⟩ |
    ⟨ts, hb, -, hstep, -, -⟩ <;> rw [hstep] at e
  · cases e
    exact ⟨busyInWindow_idle hb, rfl⟩
  · rw [← allowed_setHost owed s a as ts] at hallow
    rw [howed, ← owedBy_setHost owed s a as ts]
    have hrest : BusyInWindow owed { s with script := as, turns := ts } := h
    have hdue : meaning (({ s with script := as, turns := ts } : State).before a) = meaning s := meaning_congr rfl hs.symm
    exact ⟨busyInWindow_hostAct hrest e, (meaning_hostAct hrest (hallow ▸ hallowed) e).trans hdue⟩
  · have hsame : meaning { s with turns := ts } = meaning s := meaning_congr rfl rfl
    exact ⟨busyInWindow_idle (engineAct_next e).1, (meaning_engineAct (s := { s with turns := ts }) hb e).trans hsame⟩

/-- A run that keeps the premises and comes to rest leaves what it means. -/
theorem meaning_run {k : Nat} {owed : Bool} {s t : State} (h : BusyInWindow owed s) (ho : orderlyFor k owed s = true)
    (e : runFor k s = .next t) (ht : t.atRest) : meaning s = some t.block := by
  induction k generalizing owed s with
  | zero =>
    cases e
    exact meaning_atRest ht
  | succ k ih =>
    obtain ⟨u, hstep, hrun⟩ := runFor_succ_next e
    obtain ⟨hallowed, horderly⟩ := orderlyFor_succ_next ho hstep
    obtain ⟨hwindow, hmeaning⟩ := meaning_step h hallowed hstep
    rw [← hmeaning]
    exact ih hwindow horderly hrun

/-- Settles O55: both runs mean the same, since no schedule enters the meaning of a run, and each leaves what it means. -/
theorem scheduleDoesNotMatterToAnOrderlyHost : Obligations.ScheduleDoesNotMatterToAnOrderlyHost := by
  intro s t u ts us j k hb ho₁ e₁ ht ho₂ e₂ hu
  have h₁ := meaning_run (s := { s with turns := ts }) (busyInWindow_idle hb) ho₁ e₁ ht
  have h₂ := meaning_run (s := { s with turns := us }) (busyInWindow_idle hb) ho₂ e₂ hu
  have hsame : meaning { s with turns := ts } = meaning { s with turns := us } := meaning_congr rfl rfl
  rw [h₁, h₂] at hsame
  exact sameBlock_of_block_eq (Option.some.inj hsame)

end Sys2Proof.Machine
end

section
/-! PROOFS. The encoding (`30_encoding.md` R46, R47, R50): the decoder and the encoder invert each other, and the two
fields of format `CMDW` determine the word. -/

namespace Sys2Proof.Machine

/-! ### The decoder and the encoder -/

theorem decode_encode (i : Instr) : decode (encode i) = .ok i := by cases i <;> rfl

/-- The three words of the opcode map are the commands' words (R47). -/
theorem exists_eq_encode_iff (v : Word) :
    (∃ i, v = encode i) ↔ v = 0x00000001#32 ∨ v = 0x00000002#32 ∨ v = 0x00000003#32 := by
  constructor
  · rintro ⟨i, rfl⟩
    cases i <;> decide
  · rintro (rfl | rfl | rfl)
    · exact ⟨.capacity, rfl⟩
    · exact ⟨.embed, rfl⟩
    · exact ⟨.extract, rfl⟩

/-- The decoder rejects every word that is no command's (R49, R50). -/
theorem decode_eq_error {v : Word} (h : ¬ ∃ i, v = encode i) : decode v = .error (.illegalCommand v) := by
  rw [exists_eq_encode_iff, not_or, not_or] at h
  obtain ⟨h1, h2, h3⟩ := h
  rw [decode, if_neg h1, if_neg h2, if_neg h3]

/-- The encoder is the decoder's only preimage (R47, R50). -/
theorem decode_eq_ok_iff {v : Word} {i : Instr} : decode v = .ok i ↔ v = encode i := by
  constructor
  · intro h
    by_cases hv : ∃ j, v = encode j
    · obtain ⟨j, rfl⟩ := hv
      rw [decode_encode] at h
      cases h
      rfl
    · rw [decode_eq_error hv] at h
      cases h
  · rintro rfl
    exact decode_encode i

/-- Settles O4: the three words are the commands' own, and no other word is. -/
theorem decoderMapsThreeWordsAndRejectsTheRest : Obligations.DecoderMapsThreeWordsAndRejectsTheRest := by
  refine ⟨decode_encode .capacity, decode_encode .embed, decode_encode .extract,
    fun v h1 h2 h3 => decode_eq_error ?_⟩
  rw [exists_eq_encode_iff]
  simp [h1, h2, h3]

/-- Settles O6: a word that decodes to `i` is the word of `i`, and acceptance keeps its low bits. -/
theorem encodeAndDecodeAgree : Obligations.EncodeAndDecodeAgree :=
  ⟨fun i _ => decode_encode i, fun _ _ h => ⟨decode_eq_ok_iff.1 h, opInstr_of_decode h⟩⟩

/-- Settles O7: nine closed evaluations of the decoder. -/
theorem writtenOutWordsDecode : Obligations.WrittenOutWordsDecode := by
  unfold Obligations.WrittenOutWordsDecode
  decide

/-! ### The fields of format `CMDW` -/

/-- A word with `RSV = 0` is its `OPC`, zero-extended (R46). -/
theorem fields_eq_iff (v : Word) (opc : BitVec 8) :
    v.extractLsb' 8 24 = 0 ∧ v.extractLsb' 0 8 = opc ↔ v = opc.setWidth 32 := by
  have hv := v.isLt
  have hopc := opc.isLt
  simp only [← BitVec.toNat_inj, BitVec.extractLsb'_toNat, BitVec.toNat_setWidth, BitVec.ofNat_eq_ofNat,
    BitVec.toNat_ofNat, Nat.shiftRight_eq_div_pow, Nat.pow_zero, Nat.div_one]
  omega

/-- Legality as R46 says it, field by field. -/
theorem legalWord_iff_fields (v : Word) :
    legalWord v = true ↔
      v.extractLsb' 8 24 = 0 ∧ (v.extractLsb' 0 8 = 1 ∨ v.extractLsb' 0 8 = 2 ∨ v.extractLsb' 0 8 = 3) := by
  simp [legalWord, rsvZero, opcKnown, or_assoc]

theorem legalWord_iff_words (v : Word) :
    legalWord v = true ↔ v = 0x00000001#32 ∨ v = 0x00000002#32 ∨ v = 0x00000003#32 := by
  rw [legalWord_iff_fields, and_or_left, and_or_left, fields_eq_iff, fields_eq_iff, fields_eq_iff]
  rfl

/-- Settles O5: the fields determine the word, and the three words are those that decode. -/
theorem legalityByFieldsIsDecodability : Obligations.LegalityByFieldsIsDecodability := by
  refine fun v => ⟨legalWord_iff_fields v, legalWord_iff_words v, ?_⟩
  simp only [legalWord_iff_words, decode_eq_ok_iff, exists_eq_encode_iff]

end Sys2Proof.Machine
end

section
/-! PROOFS. Steps whose mover is settled (`40_command_issue.md` R55, R59, R60, R68), and the step that runs a decoded
command. -/

namespace Sys2Proof.Machine

theorem step_atRest {s : State} (h : s.atRest) : step s = .next s := by
  obtain ⟨hb, hs⟩ := h
  simp [step, nextTurn, takeTurn, hb, hs]

theorem step_host_of_idle {s : State} {a : HostStep} {as : List HostStep} (hb : s.busy = false)
    (hs : s.script = a :: as) : step s = hostAct { s with script := as } a := by
  simp [step, nextTurn, takeTurn, hb, hs]

/-- A busy block completes its command next where the host has no action left or no turn (R61). -/
theorem step_engine_of_busy {s : State} {i : Instr} (hb : s.busy = true) (hop : opInstr s.op = some i)
    (hdue : s.script = [] ∨ s.turns = []) : step s = exec i s := by
  have hturn : nextTurn s = .engine s := by
    unfold nextTurn
    rcases hdue with h | h
    · simp [hb, h]
    · cases hs : s.script <;> simp [hb, h]
  simp [step, hturn, takeTurn, engineAct, hop]

/-- A legal `CMD` write to an idle block is its acceptance (R59). -/
theorem regWrite_command {s : State} {v : Word} {i : Instr} (hb : s.busy = false) (hd : decode v = .ok i) :
    regWrite s 0 v = { s with result := 0, err := .none, op := v.extractLsb' 0 2, done := false, busy := true } := by
  simp [regWrite, regWriteIdle, issue, hb, hd]

/-- A table row's bits stand for `i` exactly through the word they are (R45). -/
theorem withFetchWord_command {s : State} {nbits w : Nat} {i : Instr} (h : decodeTableWord nbits w = some i) :
    s.withFetchWord nbits w = { issue s (encode i) with turns := [] } := by
  simp [State.withFetchWord, placeCommand, h]

/-- Settles O47: acceptance leaves a busy block whose `OP` stands for the command, so the engine's step is `exec`. -/
theorem writtenCommandIsRun : Obligations.WrittenCommandIsRun := by
  constructor
  · intro s v i as hb hs hd hdue
    have haccept := regWrite_command (s := { s with script := as }) hb hd
    refine ⟨_, ?_, step_engine_of_busy (i := i) rfl (opInstr_of_decode hd) hdue, rfl⟩
    rw [step_host_of_idle hb hs, hostAct, haccept]
  · intro s w i h
    have hd := decode_encode i
    rw [withFetchWord_command h]
    refine step_engine_of_busy (issue_ok_busy s _ i hd) ?_ (.inr rfl)
    rw [issue_ok_op s _ i hd]
    exact opInstr_of_decode hd

end Sys2Proof.Machine
end

section
/-! PROOFS. Procedures that only read (`30_encoding.md` R53).  An idle block shows each reading action one value,
whatever the host's side of the state holds; so a script of such actions has one end state per schedule, and a procedure
of such scripts is followed script by script. -/

namespace Sys2Proof.Machine

/-! ### Runs that come to rest -/

/-- Some run from `s` is at rest in `t`. -/
def restsIn (s t : State) : Prop := ∃ k, runFor k s = .next t ∧ t.atRest

/-- A state at rest is its own only end (R68). -/
theorem restsIn_of_atRest {s : State} (h : s.atRest) (t : State) : restsIn s t ↔ t = s := by
  constructor
  · rintro ⟨k, hrun, -⟩
    induction k with
    | zero => cases hrun; rfl
    | succ k ih => exact ih ((runFor_succ_of_next (step_atRest h)).symm.trans hrun)
  · rintro rfl
    exact ⟨0, runFor_zero t, h⟩

/-- Elsewhere a step does not change where the run ends. -/
theorem restsIn_of_step {s u : State} (h : ¬ s.atRest) (hstep : step s = .next u) (t : State) :
    restsIn s t ↔ restsIn u t := by
  constructor
  · rintro ⟨k, hrun, ht⟩
    cases k with
    | zero => cases hrun; exact absurd ht h
    | succ k => exact ⟨k, (runFor_succ_of_next hstep).symm.trans hrun, ht⟩
  · rintro ⟨k, hrun, ht⟩
    exact ⟨k + 1, (runFor_succ_of_next hstep).trans hrun, ht⟩

/-- A procedure runs its first script under some schedule to rest, and goes on from there. -/
theorem performs_cons_iff (f : List Reading → List HostStep) (p : Procedure) (s u : State) :
    performs (f :: p) s u ↔ ∃ ts t, restsIn { s with script := f s.seen, turns := ts } t ∧ performs p t u := by
  constructor
  · rintro ⟨k, ts, t, hrun, ht, hp⟩
    exact ⟨ts, t, ⟨k, hrun, ht⟩, hp⟩
  · rintro ⟨ts, t, ⟨k, hrun, ht⟩, hp⟩
    exact ⟨k, ts, t, hrun, ht, hp⟩

/-! ### Actions that only read -/

/-- Action `a` hands the host `r` and does nothing else, whatever script, schedule and readings stand in the state. -/
def Shows (s : State) (a : HostStep) (r : Reading) : Prop :=
  ∀ sc ts seen, hostAct { s with script := sc, turns := ts, seen := seen } a =
    .next { s with script := sc, turns := ts, seen := r :: seen }

theorem shows_regRead (s : State) (n : Nat) : Shows s (.regRead n) (.reg n (regValue s n)) := fun _ _ _ => rfl

theorem shows_memRead {s : State} {sp : Space} {a : Word} (hb : s.busy = false) (ha : a.toNat < s.pop sp) :
    Shows s (.memRead sp a) (.mem sp a (s.byte sp a.toNat)) := by
  intro sc ts seen
  have hpop : a.toNat < ({ s with script := sc, turns := ts, seen := seen } : State).pop sp := by cases sp <;> exact ha
  rw [hostAct, hostMemRead, if_neg (by simp [hb]), if_pos hpop]
  cases sp <;> rfl

/-- A line of memory reads shows the bytes in ascending order (R52). -/
theorem shows_linesRead {s : State} {sp : Space} {a n : Nat} (hb : s.busy = false) (hpop : a + n ≤ s.pop sp)
    (hword : a + n ≤ 2 ^ 32) :
    List.Forall₂ (Shows s) (linesRead sp a n)
      ((List.range' a n).map fun k => .mem sp (BitVec.ofNat 32 k) (s.byte sp k)) := by
  induction n generalizing a with
  | zero => exact .nil
  | succ n ih =>
    have ha : (BitVec.ofNat 32 a).toNat = a := by
      rw [BitVec.toNat_ofNat]
      exact Nat.mod_eq_of_lt (by omega)
    have hhead := shows_memRead (sp := sp) (a := BitVec.ofNat 32 a) hb (by omega)
    rw [ha] at hhead
    exact .cons hhead (ih (by omega) (by omega))

/-- An idle block whose script only reads comes to rest with the readings in `seen`, and nowhere else. -/
theorem restsIn_of_shows {s : State} {l : List HostStep} {rs : List Reading} (hb : s.busy = false)
    (h : List.Forall₂ (Shows s) l rs) (ts : List Agent) (seen : List Reading) (t : State) :
    restsIn { s with script := l, turns := ts, seen := seen } t ↔
      t = { s with script := [], turns := ts, seen := rs.reverse ++ seen } := by
  induction h generalizing seen with
  | nil => exact restsIn_of_atRest (s := { s with script := [], turns := ts, seen := seen }) ⟨hb, rfl⟩ t
  | @cons a r l rs ha _ ih =>
    have hstep : step { s with script := a :: l, turns := ts, seen := seen } =
        .next { s with script := l, turns := ts, seen := r :: seen } :=
      (step_host_of_idle (s := { s with script := a :: l, turns := ts, seen := seen }) hb rfl).trans (ha l ts seen)
    rw [restsIn_of_step (fun hrest => List.cons_ne_nil _ _ hrest.2) hstep, ih, List.reverse_cons, List.append_assoc,
      List.singleton_append]

/-- So a procedure whose first script only reads goes on from there, under whichever schedule. -/
theorem performs_cons_of_shows {s : State} {f : List Reading → List HostStep} {rs : List Reading}
    (hb : s.busy = false) (h : List.Forall₂ (Shows s) (f s.seen) rs) (p : Procedure) (u : State) :
    performs (f :: p) s u ↔
      ∃ ts, performs p { s with script := [], turns := ts, seen := rs.reverse ++ s.seen } u := by
  simp only [performs_cons_iff, restsIn_of_shows hb h, exists_eq_left]

/-- A procedure of two such scripts, the second chosen by what the first has shown, has one end state per schedule. -/
theorem performs_two_of_shows {s : State} {f g : List Reading → List HostStep} {rs qs : List Reading}
    (hb : s.busy = false) (hf : List.Forall₂ (Shows s) (f s.seen) rs)
    (hg : List.Forall₂ (Shows s) (g (rs.reverse ++ s.seen)) qs) (u : State) :
    performs [f, g] s u ↔
      ∃ ts, u = { s with script := [], turns := ts, seen := qs.reverse ++ (rs.reverse ++ s.seen) } := by
  have hsecond (ts : List Agent) := performs_cons_of_shows
    (s := { s with script := [], turns := ts, seen := rs.reverse ++ s.seen }) hb hg [] u
  simp only [performs_cons_of_shows hb hf, hsecond]
  simp only [performs, exists_const]

/-! ### The end of `extract(grid)` -/

/-- The host knows `ERR` from the `STATUS` it has read, also once it has read `RESULT`. -/
theorem sawSuccess_cons_result (v : Word) (seen : List Reading) :
    sawSuccess (.reg 6 v :: seen) = sawSuccess seen := rfl

/-- On `ERR = 0` the procedure ends exactly where the host has read `RESULT` and then that many bytes of PAY. -/
theorem performs_procReadPayload_of_success {s : State} (hb : s.busy = false) (hsaw : sawSuccess s.seen = true)
    (hpop : s.result.toNat ≤ s.payPop) (u : State) :
    performs procReadPayload s u ↔ ∃ ts, u =
      { s with
        script := [], turns := ts,
        seen := ((List.range s.result.toNat).map
          (fun k => Reading.mem .pay (BitVec.ofNat 32 k) (s.byte .pay k))).reverse ++ .reg 6 s.result :: s.seen } := by
  have hresult : List.Forall₂ (Shows s) [.regRead 6] [.reg 6 s.result] := .cons (shows_regRead s 6) .nil
  have hpay := shows_linesRead (sp := .pay) (a := 0) (n := s.result.toNat) hb
    (by simpa [State.pop] using hpop) (by simpa using s.result.isLt.le)
  rw [← List.range_eq_range'] at hpay
  refine performs_two_of_shows hb (rs := [.reg 6 s.result]) ?_ ?_ u
  · rw [if_pos hsaw]
    exact hresult
  · rw [List.reverse_singleton, List.singleton_append, sawSuccess_cons_result, if_pos hsaw]
    exact hpay

/-- On an error it takes no action. -/
theorem performs_procReadPayload_of_error {s : State} (hb : s.busy = false) (hsaw : sawSuccess s.seen = false)
    (u : State) : performs procReadPayload s u ↔ ∃ ts, u = { s with script := [], turns := ts } := by
  have hnone (l : List HostStep) : List.Forall₂ (Shows s) (if sawSuccess s.seen then l else []) [] := by
    rw [hsaw]
    exact .nil
  exact performs_two_of_shows (rs := []) (qs := []) hb (hnone _) (hnone _) u

/-- Settles O57: the end states of the procedure are known in each case, one for every schedule. -/
theorem extractProcedureReadsThePayload : Obligations.ExtractProcedureReadsThePayload := by
  intro s old hb hseen
  have hsaw : sawSuccess s.seen = decide (s.err = .none) := sawSuccess_of_status s (by rw [hseen]; rfl)
  refine ⟨fun herr hpop => ?_, fun herr => ?_⟩
  · have hends := performs_procReadPayload_of_success hb (by simp [hsaw, herr]) hpop
    refine ⟨⟨_, (hends _).2 ⟨[], rfl⟩⟩, fun u hu => ?_⟩
    obtain ⟨ts, rfl⟩ := (hends u).1 hu
    exact ⟨rfl, rfl⟩
  · have hends := performs_procReadPayload_of_error hb (by simp [hsaw, herr])
    refine ⟨⟨_, (hends _).2 ⟨[], rfl⟩⟩, fun u hu => ?_⟩
    obtain ⟨ts, rfl⟩ := (hends u).1 hu
    rfl

end Sys2Proof.Machine
end

section
/-! PROOFS. The host's accesses (`40_command_issue.md` R56 to R59, R63, R64): what each answers, in each phase, for a
register and for a byte of memory. -/

namespace Sys2Proof.Machine

/-! ### Register reads -/

/-- `STATUS` as a number: `ERR` in bits 7:4, `DONE` in bit 1, `BUSY` in bit 0 (R15). -/
theorem toNat_statusWord (s : State) :
    (statusWord s).toNat = 16 * (errCode s.err).toNat + (if s.done then 2 else 0) + (if s.busy then 1 else 0) := by
  unfold statusWord
  cases s.err <;> cases s.done <;> cases s.busy <;> decide

/-- The numbers above 6 are reserved (R21). -/
theorem regValue_reserved (s : State) {n : Nat} (hn : 7 ≤ n) : regValue s n = 0 := by
  obtain ⟨m, rfl⟩ := Nat.exists_eq_add_of_le' hn
  rfl

/-- A block that has just accepted a command, or still runs it, shows neither `DONE` nor an error (R15). -/
theorem statusWord_running {s : State} (hb : s.busy = true) (hd : s.done = false) (he : s.err = .none) :
    statusWord s = 0x00000001#32 := by
  simp [statusWord, hb, hd, he, errCode]

/-- Settles O8: register by register; the invariant fixes what a running command shows. -/
theorem registerReadsReturnTheRegisters : Obligations.RegisterReadsReturnTheRegisters := by
  intro s
  refine ⟨fun _ => rfl, rfl, toNat_statusWord s, ?_, toNat_dimWord s.width, toNat_dimWord s.height, rfl, rfl,
    fun n => regValue_reserved s, fun hinv hb => ?_⟩
  · refine (toNat_cfgWord s).trans ?_
    cases s.alpha <;> rfl
  · have hdone := hinv.busyNotDone hb
    obtain ⟨herr, hresult⟩ := hinv.clearUntilDone hdone
    exact ⟨statusWord_running hb hdone herr, hresult⟩

/-! ### Register writes -/

theorem hostAct_regWrite_of_idle {s : State} (hb : s.busy = false) (n : Nat) (v : Word) :
    hostAct s (.regWrite n v) = .next (regWriteIdle s n v) := by
  simp [hostAct, regWrite, hb]

theorem hostAct_regWrite_of_busy {s : State} (hb : s.busy = true) (n : Nat) (v : Word) :
    hostAct s (.regWrite n v) = .next s := by
  simp [hostAct, regWrite, hb]

theorem regWriteIdle_reserved (s : State) {n : Nat} (v : Word) (hn : 7 ≤ n) : regWriteIdle s n v = s := by
  obtain ⟨m, rfl⟩ := Nat.exists_eq_add_of_le' hn
  rfl

/-- Settles O9: an idle write is `regWriteIdle`, read off number by number. -/
theorem idleRegisterWritesStoreTheirField : Obligations.IdleRegisterWritesStoreTheirField := by
  intro s v hb
  have hwrite := fun n => hostAct_regWrite_of_idle hb n v
  exact ⟨hwrite 0, hwrite 1, hwrite 2, hwrite 3, hwrite 4, hwrite 5, hwrite 6,
    fun n hn => (hwrite n).trans (by rw [regWriteIdle_reserved s v hn])⟩

/-- Settles O12: a word that decodes is accepted, and one that does not is rejected by the decoder, so reported. -/
theorem commandWriteAcceptsOrReports : Obligations.CommandWriteAcceptsOrReports := by
  intro s v hb
  refine ⟨fun i hd => congrArg _ (regWrite_command hb hd), fun hno => ?_⟩
  cases hd : decode v with
  | ok i => exact absurd hd (hno i)
  | error r =>
    rw [hostAct_regWrite_of_idle hb, regWriteIdle, issue_error s v r hd]
    rfl

/-! ### Memory accesses -/

/-- A byte of an idle, populated memory is stored (R63). -/
theorem hostMemWrite_idle {s : State} {sp : Space} {a : Word} (hb : s.busy = false) (ha : a.toNat < s.pop sp)
    (v : Byte) : hostMemWrite s sp a v = .next (s.putByte sp a.toNat v) := by
  simp [hostMemWrite, hb, ha]

/-- Settles O16: the read shows the byte, and the write is `putByte`, read after write. -/
theorem hostMemoryAccessesReachTheByte : Obligations.HostMemoryAccessesReachTheByte := by
  intro s sp a hb ha
  refine ⟨shows_memRead hb ha s.script s.turns s.seen, fun v => ?_⟩
  refine ⟨s.putByte sp a.toNat v, hostMemWrite_idle hb ha v, by cases sp <;> rfl, fun sp' b => ?_⟩
  simp only [State.byte_putByte, @eq_comm _ sp, @eq_comm _ a.toNat]

/-- While the block is busy neither access has a step (R64). -/
theorem hostMemRead_busy {s : State} (hb : s.busy = true) (sp : Space) (a : Word) :
    hostMemRead s sp a = .refused (.hostMemoryWhileBusy sp) := if_pos hb

theorem hostMemWrite_busy {s : State} (hb : s.busy = true) (sp : Space) (a : Word) (v : Byte) :
    hostMemWrite s sp a v = .refused (.hostMemoryWhileBusy sp) := if_pos hb

/-- Settles O17: both accesses ask for `BUSY = 0` first. -/
theorem hostMemoryAccessWhileBusyIsRefused : Obligations.HostMemoryAccessWhileBusyIsRefused :=
  fun _ sp a v hb => ⟨hostMemRead_busy hb sp a, hostMemWrite_busy hb sp a v⟩

end Sys2Proof.Machine
end

section
/-! PROOFS. Steps of a busy block (`40_command_issue.md` R55, R58, R60 to R62, R66, R67): whose they are, what the host can
do in them, and that a command is in execution for as many of them as the schedule gives the host, and one more. -/

namespace Sys2Proof.Machine

/-! ### Steps whose mover is settled -/

/-- Where the schedule names the engine, the command completes and uses the turn up (R60, R62). -/
theorem step_engine_of_turn {s : State} {i : Instr} {a : HostStep} {as : List HostStep} {ts : List Agent}
    (hb : s.busy = true) (hop : opInstr s.op = some i) (hs : s.script = a :: as) (ht : s.turns = .engine :: ts) :
    step s = exec i { s with turns := ts } := by
  simp [step, nextTurn, takeTurn, engineAct, hb, hop, hs, ht]

/-- Where it names the host, the host's next action is due. -/
theorem nextTurn_host_of_turn {s : State} {a : HostStep} {as : List HostStep} {ts : List Agent} (hb : s.busy = true)
    (hs : s.script = a :: as) (ht : s.turns = .host :: ts) :
    nextTurn s = .host a { s with script := as, turns := ts } := by
  simp [nextTurn, hb, hs, ht]

/-- So it is taken, and uses the turn up. -/
theorem step_host_of_turn {s : State} {a : HostStep} {as : List HostStep} {ts : List Agent} (hb : s.busy = true)
    (hs : s.script = a :: as) (ht : s.turns = .host :: ts) :
    step s = hostAct { s with script := as, turns := ts } a := by
  rw [step, nextTurn_host_of_turn hb hs ht, takeTurn]

/-- Settles O45: by who is due. -/
theorem engineStepRunsTheCommandInExecution : Obligations.EngineStepRunsTheCommandInExecution :=
  fun _ _ hb hop => ⟨step_engine_of_busy hb hop, fun _ _ _ => step_engine_of_turn hb hop⟩

/-- Settles O46: by who is due. -/
theorem hostStepTakesTheNextAction : Obligations.HostStepTakesTheNextAction :=
  fun _ _ _ hs => ⟨fun hb => step_host_of_idle hb hs, fun _ hb ht => step_host_of_turn hb hs ht⟩

/-- Settles O48. -/
theorem restIsStable : Obligations.RestIsStable := fun _ => step_atRest

/-! ### What the host can do to a busy block -/

/-- An action that resets the block. -/
def HostStep.resets (a : HostStep) : Prop := a = .reset ∨ a = .powerCycle

/-- A reset leaves the block idle. -/
theorem busy_of_resets {s t : State} {a : HostStep} (ha : a.resets) (e : hostAct s a = .next t) : t.busy = false := by
  rcases ha with rfl | rfl
  · obtain ⟨p, q, d, rfl, -⟩ := hostReset_next e
    rfl
  · cases e
    rfl

/-- What one turn of `WAIT` can do (R52). -/
theorem hostWait_cases (s : State) :
    (s.done = true ∧ hostWait s = hostRegRead s 1) ∨
    (s.done = false ∧ hostWait s = { hostRegRead s 1 with script := .wait :: s.script }) := by
  by_cases hd : s.done = true
  · exact .inl ⟨hd, hostWait_done hd⟩
  · rw [Bool.not_eq_true] at hd
    exact .inr ⟨hd, hostWait_pending hd⟩

/-- Every other action on a busy block changes the host's side only: a register write is dropped (R58), and a memory
access has no step (R64). -/
theorem hostAct_next_of_busy {s t : State} {a : HostStep} (hb : s.busy = true) (ha : ¬ a.resets)
    (e : hostAct s a = .next t) : ∃ sc seen, t = { s with script := sc, seen := seen } := by
  cases a with
  | regRead n => cases e; exact ⟨s.script, _, rfl⟩
  | regWrite n v =>
    rw [hostAct_regWrite_of_busy hb] at e
    cases e
    exact ⟨s.script, s.seen, rfl⟩
  | memRead sp a =>
    rw [hostAct, hostMemRead_busy hb] at e
    cases e
  | memWrite sp a v =>
    rw [hostAct, hostMemWrite_busy hb] at e
    cases e
  | wait =>
    cases e
    rcases hostWait_cases s with ⟨-, e⟩ | ⟨-, e⟩ <;> rw [e]
    · exact ⟨s.script, _, rfl⟩
    · exact ⟨.wait :: s.script, _, rfl⟩
  | reset => exact absurd (.inl rfl) ha
  | powerCycle => exact absurd (.inr rfl) ha

/-- A step of a busy block resets it, or changes the host's side only, or completes the command. -/
theorem step_next_of_busy {s t : State} (hb : s.busy = true) (e : step s = .next t) :
    (t.busy = false ∧ ∃ a as ts, s.script = a :: as ∧ s.turns = .host :: ts ∧ a.resets) ∨
    (∃ sc ts seen, s.turns = .host :: ts ∧ t = { s with script := sc, turns := ts, seen := seen }) ∨
    ∃ i ts, exec i { s with turns := ts } = .next t := by
  rcases step_cases e with ⟨hidle, -, -⟩ | ⟨a, as, ts, hs, hmove, e⟩ | ⟨ts, i, -, -, -, e⟩
  · simp [hb] at hidle
  · have hts : s.turns = .host :: ts := by simpa [hb] using hmove
    by_cases ha : a.resets
    · exact .inl ⟨busy_of_resets ha e, a, as, ts, hs, hts, ha⟩
    · obtain ⟨sc, seen, rfl⟩ := hostAct_next_of_busy (s := { s with script := as, turns := ts }) hb ha e
      exact .inr (.inl ⟨sc, ts, seen, hts, rfl⟩)
  · exact .inr (.inr ⟨i, ts, e⟩)

/-- A completion leaves the block idle, and the host's script as it was. -/
theorem exec_next_idle {i : Instr} {s t : State} (e : exec i s = .next t) : t.busy = false ∧ t.script = s.script := by
  obtain ⟨p, q, err, r, rfl, -⟩ := exec_next e
  exact ⟨rfl, rfl⟩

/-- A completion leaves the operand registers. -/
theorem operands_of_exec {i : Instr} {s t : State} (e : exec i s = .next t) :
    t.alpha = s.alpha ∧ t.width = s.width ∧ t.height = s.height ∧ t.payLen = s.payLen := by
  obtain ⟨p, q, err, r, rfl, -⟩ := exec_next e
  exact ⟨rfl, rfl, rfl, rfl⟩

/-- Settles O11: a step short of a reset changes the host's side only, or completes the command. -/
theorem busyRegisterWritesAreDropped : Obligations.BusyRegisterWritesAreDropped := by
  refine ⟨fun s n v hb => hostAct_regWrite_of_busy hb n v, fun s t hb e hreset hpower => ?_⟩
  rcases step_next_of_busy hb e with ⟨-, a, as, ts, hs, hts, rfl | rfl⟩ | ⟨sc, ts, seen, -, rfl⟩ | ⟨i, ts, e⟩
  · exact absurd (nextTurn_host_of_turn hb hs hts) (hreset _)
  · exact absurd (nextTurn_host_of_turn hb hs hts) (hpower _)
  · exact ⟨rfl, rfl, rfl, rfl⟩
  · exact operands_of_exec (s := { s with turns := ts }) e

/-! ### How a command starts -/

/-- An action on an idle block that leaves it busy is a `CMD` write that was accepted (R59, R67). -/
theorem hostAct_starts {s t : State} {a : HostStep} (hb : s.busy = false) (e : hostAct s a = .next t)
    (ht : t.busy = true) : ∃ v i, a = .regWrite 0 v ∧ decode v = .ok i ∧ opInstr t.op = some i := by
  have hno (h : t.busy = false) : False := by simp [h] at ht
  cases a with
  | regRead n => cases e; exact (hno hb).elim
  | regWrite n v =>
    cases e
    rcases regWrite_cases s n v with ⟨-, e⟩ | ⟨-, hn, e⟩ | ⟨-, -, -, e⟩ | ⟨-, rfl, i, hd, e⟩ <;> rw [e] at hno ⊢
    · exact (hno hb).elim
    · exact (hno ((regWriteIdle_busy s n v hn).trans hb)).elim
    · exact (hno rfl).elim
    · exact ⟨v, i, rfl, hd, opInstr_of_decode hd⟩
  | memRead sp a =>
    obtain ⟨-, -, rfl⟩ := hostMemRead_next e
    exact (hno hb).elim
  | memWrite sp a v =>
    obtain ⟨-, -, rfl⟩ := hostMemWrite_next e
    exact (hno ((State.putByte_busy s sp a.toNat v).trans hb)).elim
  | wait =>
    cases e
    rcases hostWait_cases s with ⟨-, e⟩ | ⟨-, e⟩ <;> rw [e] at hno ⊢ <;> exact (hno hb).elim
  | reset => exact (hno (busy_of_resets (.inl rfl) e)).elim
  | powerCycle => exact (hno (busy_of_resets (.inr rfl) e)).elim

/-- Settles O13: the step of an idle block is the host's action, and one that leaves a busy block busy touches the
host's side only. -/
theorem onlyACommandWriteStartsACommand : Obligations.OnlyACommandWriteStartsACommand := by
  constructor
  · intro s t hb e ht
    rcases step_cases e with ⟨-, -, rfl⟩ | ⟨a, as, ts, hs, -, e⟩ | ⟨ts, i, hbusy, -, -, -⟩
    · simp [hb] at ht
    · obtain ⟨v, i, rfl, hd, hop⟩ := hostAct_starts (s := { s with script := as, turns := ts }) hb e ht
      exact ⟨v, as, i, hs, hd, hop⟩
    · simp [hb] at hbusy
  · intro s t hb e ht
    rcases step_next_of_busy hb e with ⟨hidle, -⟩ | ⟨sc, ts, seen, -, rfl⟩ | ⟨i, ts, e⟩
    · simp [hidle] at ht
    · rfl
    · simp [exec_next_idle e] at ht

/-! ### How long it runs -/

theorem abandonEmbed_ne_fault (s : State) (f : Fault) : abandonEmbed s ≠ .fault f := by
  unfold abandonEmbed
  split
  · nofun
  · split <;> nofun

theorem abandonExtract_ne_fault (s : State) (f : Fault) : abandonExtract s ≠ .fault f := by
  unfold abandonExtract
  split
  · nofun
  · split <;> nofun

/-- Where `OP` stands for a command, a reset does not fault (R62, R121). -/
theorem hostReset_ne_fault {s : State} (hop : s.op ≠ 0) (f : Fault) : hostReset s ≠ .fault f := by
  unfold hostReset
  split
  · split
    · nofun
    · exact abandonEmbed_ne_fault s f
    · exact abandonExtract_ne_fault s f
    · exact absurd ((opInstr_eq_none_iff _).1 ‹_›) hop
  · nofun

theorem hostMemRead_ne_fault (s : State) (sp : Space) (a : Word) (f : Fault) : hostMemRead s sp a ≠ .fault f := by
  unfold hostMemRead
  split
  · nofun
  · split <;> nofun

theorem hostMemWrite_ne_fault (s : State) (sp : Space) (a : Word) (v : Byte) (f : Fault) :
    hostMemWrite s sp a v ≠ .fault f := by
  unfold hostMemWrite
  split
  · nofun
  · split <;> nofun

/-- Nor does any step. -/
theorem step_ne_fault {s : State} (hop : s.op ≠ 0) (f : Fault) : step s ≠ .fault f := by
  rcases step_eq_cases s with ⟨-, -, e⟩ | ⟨a, as, ts, -, -, e⟩ | ⟨ts, -, -, e⟩ <;> rw [e]
  · nofun
  · cases a with
    | regRead | regWrite | wait | powerCycle => nofun
    | memRead sp a => exact hostMemRead_ne_fault _ sp a f
    | memWrite sp a v => exact hostMemWrite_ne_fault _ sp a v f
    | reset => exact hostReset_ne_fault (s := { s with script := as, turns := ts }) hop f
  · unfold engineAct
    split
    · exact exec_ne_fault _ _ f
    · exact absurd ((opInstr_eq_none_iff _).1 ‹_›) hop

theorem runFor_one (s : State) : runFor 1 s = step s := by
  cases e : step s with
  | next t => exact runFor_succ_of_next e
  | fault f => exact runFor_succ_of_fault e
  | refused r => exact runFor_succ_of_refused e

/-- The outcome is an idle block, or a refusal. -/
def EndsCommand : Host.Outcome State Fault Refusal → Prop
  | .next t => t.busy = false
  | .refused _ => True
  | .fault _ => False

/-- A step ends the command, or it is the host's, uses up a turn, and leaves the command in execution. -/
theorem step_ends_or_host {s : State} (hb : s.busy = true) (hop : s.op ≠ 0) :
    EndsCommand (step s) ∨ ∃ sc ts seen, s.turns = .host :: ts ∧
      step s = .next { s with script := sc, turns := ts, seen := seen } := by
  cases e : step s with
  | refused r => exact .inl trivial
  | fault f => exact absurd e (step_ne_fault hop f)
  | next t =>
    rcases step_next_of_busy hb e with ⟨hidle, -⟩ | ⟨sc, ts, seen, hts, rfl⟩ | ⟨i, ts, e⟩
    · exact .inl hidle
    · exact .inr ⟨sc, ts, seen, hts, rfl⟩
    · exact .inl (exec_next_idle e).1

/-- So the schedule bounds the steps a command is in execution. -/
theorem endsCommand_within_turns {s : State} (hb : s.busy = true) (hop : s.op ≠ 0) :
    ∃ k ≤ s.turns.length + 1, EndsCommand (runFor k s) := by
  generalize hlen : s.turns.length = n
  induction n generalizing s with
  | zero =>
    rcases step_ends_or_host hb hop with hends | ⟨sc, ts, seen, hts, -⟩
    · exact ⟨1, le_rfl, by rwa [runFor_one]⟩
    · simp [hts] at hlen
  | succ n ih =>
    rcases step_ends_or_host hb hop with hends | ⟨sc, ts, seen, hts, hstep⟩
    · exact ⟨1, by omega, by rwa [runFor_one]⟩
    · obtain ⟨k, hk, hends⟩ := ih (s := { s with script := sc, turns := ts, seen := seen }) hb hop
        (by simpa [hts] using hlen)
      exact ⟨k + 1, by omega, by rwa [runFor_succ_of_next hstep]⟩

/-- Settles O51: every turn the schedule gives the host is used up, and then the engine is due. -/
theorem busyBlockCompletesWithinItsTurns : Obligations.BusyBlockCompletesWithinItsTurns :=
  fun _ hb hop => endsCommand_within_turns hb hop

/-! ### A host that acts while it runs -/

/-- Settles O52: the host's early write is dropped; the engine leaves an idle block with the script as it was, and the
write is the next step. -/
theorem bothSchedulesOfAnEarlyWrite : Obligations.BothSchedulesOfAnEarlyWrite := by
  intro s i n v as hb hop hs
  refine ⟨fun ts hts => ?_, fun ts t hts e => ?_⟩
  · rw [step_host_of_turn hb hs hts]
    exact hostAct_regWrite_of_busy (s := { s with script := as, turns := ts }) hb n v
  · obtain ⟨hidle, hscript⟩ := exec_next_idle e
    have hwrite : runFor 2 s = .next (regWriteIdle { t with script := as } n v) := by
      rw [runFor_succ_of_next ((step_engine_of_turn hb hop hs hts).trans e), runFor_one,
        step_host_of_idle hidle (hscript.trans hs)]
      exact hostAct_regWrite_of_idle (s := { t with script := as }) hidle n v
    refine ⟨hwrite, fun hn => ?_⟩
    rw [hwrite, hn]
    rfl

/-- A busy block whose host only reads, one turn for each read, completes its command with the readings in `seen`. -/
theorem runFor_shows {s : State} {i : Instr} {l : List HostStep} {rs : List Reading} (hb : s.busy = true)
    (hop : opInstr s.op = some i) (h : List.Forall₂ (Shows s) l rs) (as : List HostStep) (seen : List Reading) :
    runFor (l.length + 1) { s with script := l ++ as, turns := List.replicate l.length .host, seen := seen } =
      exec i { s with script := as, turns := [], seen := rs.reverse ++ seen } := by
  induction h generalizing seen with
  | nil => exact (runFor_one _).trans (step_engine_of_busy hb hop (.inr rfl))
  | @cons a r l rs ha _ ih =>
    have hstep : step { s with script := a :: (l ++ as), turns := .host :: List.replicate l.length .host, seen := seen } =
        .next { s with script := l ++ as, turns := List.replicate l.length .host, seen := r :: seen } :=
      (step_host_of_turn
        (s := { s with script := a :: (l ++ as), turns := .host :: List.replicate l.length .host, seen := seen })
        hb rfl rfl).trans (ha (l ++ as) _ seen)
    rw [List.reverse_cons, List.append_assoc, List.singleton_append, ← ih]
    exact runFor_succ_of_next hstep

/-- What a block that runs a command shows: constants (R56, R66). -/
theorem regValue_running (s : State) (op : BitVec 2) (n : Nat) :
    regValue { s with result := 0, err := .none, op := op, done := false, busy := true } n =
      if n = 1 then 0x00000001#32 else if n = 2 ∨ n = 3 ∨ n = 4 ∨ n = 5 then regValue s n else 0 := by
  match n with
  | 1 => exact statusWord_running rfl rfl rfl
  | 0 | 2 | 3 | 4 | 5 | 6 => rfl
  | n + 7 =>
    rw [if_neg (by omega), if_neg (by omega)]
    rfl

/-- Settles O53: acceptance, then reads that show constants, then the completion. -/
theorem readsDuringACommandAreInvisible : Obligations.ReadsDuringACommandAreInvisible := by
  intro s v i ns as hb hd hs hts
  have haccept : step s = .next { s with
      result := 0, err := .none, op := v.extractLsb' 0 2, done := false, busy := true,
      script := ns.map HostStep.regRead ++ as } := by
    rw [step_host_of_idle hb hs]
    exact congrArg _ (regWrite_command (s := { s with script := ns.map HostStep.regRead ++ as }) hb hd)
  have hreads (u : State) : List.Forall₂ (Shows u) (ns.map HostStep.regRead)
      (ns.map fun n => .reg n (regValue u n)) := by
    rw [List.forall₂_map_left_iff, List.forall₂_map_right_iff, List.forall₂_same]
    exact fun n _ => shows_regRead u n
  have hrun := runFor_shows
    (s := { s with result := 0, err := .none, op := v.extractLsb' 0 2, done := false, busy := true })
    rfl (opInstr_of_decode hd) (hreads _) as s.seen
  rw [List.length_map, ← hts] at hrun
  simp only [regValue_running] at hrun
  exact (runFor_succ_of_next haccept).trans hrun

end Sys2Proof.Machine
end

section
/-! PROOFS. Hosts that keep the premises of rule R69 (`40_command_issue.md` R69, `70_reset_and_hazards.md` R124): while the
window is open they access no memory, and a script with a `WAIT` after every legal `CMD` write is such a host's. -/

namespace Sys2Proof.Machine

/-- With the window closed the block is idle. -/
theorem BusyInWindow.idle_of_closed {s : State} (h : BusyInWindow false s) : s.busy = false :=
  Bool.eq_false_iff.2 fun hb => Bool.noConfusion (h hb).1

/-- In every state that meets the invariant a busy block has `DONE = 0`. -/
theorem State.Inv.busyInWindow {owed : Bool} {s : State} (hinv : s.Inv) (h : s.busy = true → owed = true) :
    BusyInWindow owed s := fun hb => ⟨h hb, hinv.busyNotDone hb⟩

/-! ### No forbidden access -/

/-- The outcome is not that of a memory access to a busy block (R64). -/
def MeetsNoForbiddenAccess (o : Host.Outcome State Fault Refusal) : Prop := ∀ sp, o ≠ .refused (.hostMemoryWhileBusy sp)

theorem meetsNoForbiddenAccess_next (t : State) : MeetsNoForbiddenAccess (.next t) := nofun

/-- The engine's step meets none: it is refused only at an unpopulated address (R40). -/
theorem engineAct_meetsNoForbiddenAccess (s : State) : MeetsNoForbiddenAccess (engineAct s) := by
  intro sp e
  unfold engineAct at e
  split at e
  · obtain ⟨-, -, ⟨h, -⟩ | ⟨h, -⟩⟩ := exec_refused e <;> cases h
  · cases e

/-- A memory access to an idle block is not one. -/
theorem hostMemRead_meetsNoForbiddenAccess {s : State} (hb : s.busy = false) (sp : Space) (a : Word) :
    MeetsNoForbiddenAccess (hostMemRead s sp a) := by
  rw [hostMemRead, if_neg (by simp [hb])]
  split <;> nofun

theorem hostMemWrite_meetsNoForbiddenAccess {s : State} (hb : s.busy = false) (sp : Space) (a : Word) (v : Byte) :
    MeetsNoForbiddenAccess (hostMemWrite s sp a v) := by
  rw [hostMemWrite, if_neg (by simp [hb])]
  split <;> nofun

/-- What the premises let the host do. -/
theorem hostAct_meetsNoForbiddenAccess {owed : Bool} {s : State} {a : HostStep} (h : BusyInWindow owed s)
    (hallowed : allowed owed s a = true) : MeetsNoForbiddenAccess (hostAct s a) := by
  cases a with
  | regRead | regWrite | wait | powerCycle => exact meetsNoForbiddenAccess_next _
  | memRead sp a =>
    obtain rfl : owed = false := by simpa [allowed] using hallowed
    exact hostMemRead_meetsNoForbiddenAccess h.idle_of_closed sp a
  | memWrite sp a v =>
    obtain rfl : owed = false := by simpa [allowed] using hallowed
    exact hostMemWrite_meetsNoForbiddenAccess h.idle_of_closed sp a v
  | reset =>
    rw [hostAct_reset_idle (by simpa [allowed] using hallowed)]
    exact meetsNoForbiddenAccess_next _

theorem step_meetsNoForbiddenAccess {owed : Bool} {s : State} (h : BusyInWindow owed s)
    (hallowed : stepAllowed owed s = true) : MeetsNoForbiddenAccess (step s) := by
  rcases step_window_cases owed s with ⟨-, -, e, -, -⟩ | ⟨a, as, ts, -, -, e, hallow, -⟩ | ⟨ts, -, -, e, -, -⟩ <;> rw [e]
  · exact meetsNoForbiddenAccess_next s
  · rw [hallow, ← allowed_setHost owed s a as ts] at hallowed
    exact hostAct_meetsNoForbiddenAccess (s := { s with script := as, turns := ts }) h hallowed
  · exact engineAct_meetsNoForbiddenAccess _

theorem runFor_meetsNoForbiddenAccess {k : Nat} {owed : Bool} {s : State} (h : BusyInWindow owed s)
    (ho : orderlyFor k owed s = true) : MeetsNoForbiddenAccess (runFor k s) := by
  induction k generalizing owed s with
  | zero => exact meetsNoForbiddenAccess_next s
  | succ k ih =>
    have hallowed : stepAllowed owed s = true := by
      rw [orderlyFor, Bool.and_eq_true] at ho
      exact ho.1
    have hfirst := step_meetsNoForbiddenAccess h hallowed
    cases e : step s with
    | next t =>
      rw [runFor_succ_of_next e]
      exact ih (meaning_step h hallowed e).1 (orderlyFor_succ_next ho e).2
    | fault f => rw [runFor_succ_of_fault e, ← e]; exact hfirst
    | refused r => rw [runFor_succ_of_refused e, ← e]; exact hfirst

/-- Settles O54: along an orderly run the block is busy only while the window is open, when the host accesses no memory. -/
theorem orderlyHostsMeetNoForbiddenAccess : Obligations.OrderlyHostsMeetNoForbiddenAccess := by
  constructor
  · intro s k _ hb ho
    exact runFor_meetsNoForbiddenAccess (busyInWindow_idle hb) ho
  · intro s owed hinv hopen hallowed
    have hwindow := hinv.busyInWindow hopen
    refine ⟨step_meetsNoForbiddenAccess hwindow hallowed, fun t e hb => ?_⟩
    exact ((meaning_step hwindow hallowed e).1 hb).1

/-! ### Waiting scripts -/

/-- A script that keeps the premises where a `WAIT` is owed does so anyway. -/
theorem waitsFirst_of_imp {o o' : Bool} {l : List HostStep} (h : o' = true → o = true) (hl : waitsFirst o l = true) :
    waitsFirst o' l = true := by
  cases o' with
  | false => cases o with
    | false => exact hl
    | true => exact waitsFirst_mono l hl
  | true => rwa [h rfl] at hl

/-- The first action of a waiting script is allowed. -/
theorem allowed_of_waitsFirst {owed : Bool} {s : State} {a : HostStep} {as : List HostStep} (h : BusyInWindow owed s)
    (hw : waitsFirst owed (a :: as) = true) : allowed owed s a = true := by
  have hclosed (hw : (!owed && waitsFirst false as) = true) : owed = false := by
    rw [Bool.and_eq_true, Bool.not_eq_true'] at hw
    exact hw.1
  cases a with
  | regRead | wait => rfl
  | regWrite n v =>
    rw [waitsFirst, Bool.and_eq_true] at hw
    exact hw.1
  | memRead | memWrite =>
    obtain rfl := hclosed hw
    rfl
  | reset | powerCycle =>
    obtain rfl := hclosed hw
    simpa [allowed] using h.idle_of_closed

/-- What is left of it after that action waits too. -/
theorem waitsFirst_hostAct {owed : Bool} {s t : State} {a : HostStep}
    (hw : waitsFirst owed (a :: s.script) = true) (e : hostAct s a = .next t) :
    waitsFirst (owedBy owed s a) t.script = true := by
  have hscript (ha : a ≠ .wait) : t.script = s.script := hostAct_script ha e
  cases a with
  | regRead n =>
    rw [hscript nofun]
    exact waitsFirst_of_imp (by simp +contextual [owedBy]) hw
  | regWrite n v =>
    rw [waitsFirst, Bool.and_eq_true, Bool.not_eq_true'] at hw
    obtain ⟨rfl, hrest⟩ := hw
    rw [hscript nofun]
    exact waitsFirst_of_imp (by simp +contextual [owedBy]) hrest
  | wait =>
    cases e
    rcases hostWait_cases s with ⟨hd, e⟩ | ⟨hd, e⟩ <;> rw [e]
    · rw [owedBy, hd, Bool.not_true, Bool.and_false]
      exact hw
    · exact hw
  | memRead | memWrite | reset | powerCycle =>
    rw [waitsFirst, Bool.and_eq_true, Bool.not_eq_true'] at hw
    obtain ⟨rfl, hrest⟩ := hw
    rw [hscript nofun]
    exact hrest

/-- Every step of a waiting script keeps the premises, and leaves a waiting script. -/
theorem step_waitsFirst {owed : Bool} {s : State} (h : BusyInWindow owed s) (hw : waitsFirst owed s.script = true) :
    stepAllowed owed s = true ∧ ∀ t, step s = .next t → waitsFirst (owedAfter owed s) t.script = true := by
  rcases step_window_cases owed s with ⟨-, -, e, hallow, howed⟩ | ⟨a, as, ts, hs, -, e, hallow, howed⟩ |
    ⟨ts, -, -, e, hallow, howed⟩ <;> rw [e, hallow, howed]
  · refine ⟨rfl, fun t e => ?_⟩
    cases e
    exact hw
  · rw [hs] at hw
    refine ⟨allowed_of_waitsFirst h hw, fun t e => ?_⟩
    rw [← owedBy_setHost owed s a as ts]
    exact waitsFirst_hostAct (s := { s with script := as, turns := ts }) hw e
  · refine ⟨rfl, fun t e => ?_⟩
    rw [(engineAct_next e).2]
    exact hw

theorem orderlyFor_of_waitsFirst {owed : Bool} {s : State} (h : BusyInWindow owed s)
    (hw : waitsFirst owed s.script = true) (k : Nat) : orderlyFor k owed s = true := by
  induction k generalizing owed s with
  | zero => rfl
  | succ k ih =>
    obtain ⟨hallowed, hrest⟩ := step_waitsFirst h hw
    rw [orderlyFor, hallowed, Bool.true_and]
    cases e : step s with
    | next t => exact ih (meaning_step h hallowed e).1 (hrest t e)
    | fault f => rfl
    | refused r => rfl

/-- Settles O56: a `WAIT` is owed whenever the window is open, so no action but a read or a `WAIT` stands first then. -/
theorem waitingScriptsKeepThePremises : Obligations.WaitingScriptsKeepThePremises :=
  fun s ts k hb hw => orderlyFor_of_waitsFirst (s := { s with turns := ts }) (busyInWindow_idle hb) hw k

end Sys2Proof.Machine
end

section
/-! PROOFS. The premise `memory_written` (`40_command_issue.md` R69): the list of what the host has written stays true of the
memories, and where a command reads listed bytes only, what the memories held at power-on (`70_reset_and_hazards.md` R120)
enters neither its outcome nor a run. -/

namespace Sys2Proof.Machine

/-! ### The list stays true -/

/-- A list speaks of the memories alone. -/
theorem State.lists.of_memories_eq {s t : State} {w : Written} (h : s.lists w) (hpix : t.pix = s.pix)
    (hpay : t.pay = s.pay) : t.lists w := by
  rintro ⟨sp, a⟩ hx
  have hmem : t.mem sp = s.mem sp := by
    cases sp with
    | pix => exact hpix
    | pay => exact hpay
  rw [hmem]
  exact h _ hx

/-- Any action of the host. -/
theorem hostAct_lists {s t : State} {a : HostStep} {w : Written} (hw : s.lists w) (e : hostAct s a = .next t) :
    t.lists (writtenBy w a) := by
  cases a with
  | regRead n => cases e; exact hw
  | regWrite n v =>
    cases e
    show (regWrite s n v).lists w
    rcases regWrite_cases s n v with ⟨-, e⟩ | ⟨-, hn, e⟩ | ⟨-, -, -, e⟩ | ⟨-, -, i, -, e⟩ <;> rw [e]
    · exact hw
    · exact hw.of_memories_eq (regWriteIdle_pix s n v hn) (regWriteIdle_pay s n v hn)
    · exact (State.lists_finish ..).2 hw
    · exact hw
  | memRead sp a =>
    obtain ⟨-, -, rfl⟩ := hostMemRead_next e
    exact hw
  | memWrite sp a v =>
    obtain ⟨-, -, rfl⟩ := hostMemWrite_next e
    exact State.lists_putByte hw sp a.toNat v
  | wait =>
    cases e
    rcases hostWait_cases s with ⟨-, e⟩ | ⟨-, e⟩ <;> rw [e] <;> exact hw
  | reset => exact hostReset_lists e hw
  | powerCycle => exact nofun

theorem engineAct_lists {s t : State} {w : Written} (hw : s.lists w) (e : engineAct s = .next t) : t.lists w := by
  unfold engineAct at e
  split at e
  · exact exec_lists e hw
  · cases e

theorem step_lists {s t : State} {w : Written} (hw : s.lists w) (e : step s = .next t) :
    t.lists (writtenAfter w s) := by
  rcases step_written_cases w s with ⟨-, -, hstep, hw'⟩ | ⟨a, as, ts, -, -, hstep, hw'⟩ | ⟨ts, -, -, hstep, hw'⟩ <;>
    rw [hstep] at e <;> rw [hw']
  · cases e
    exact hw
  · exact hostAct_lists (s := { s with script := as, turns := ts }) hw e
  · exact engineAct_lists (s := { s with turns := ts }) hw e

/-- The engine's turn enters nothing in the list. -/
theorem writtenAfter_of_engine {s : State} {ts : List Agent} (w : Written) (hb : s.busy = true)
    (hdue : s.script = [] ∨ s.turns = [] ∨ s.turns = .engine :: ts) : writtenAfter w s = w := by
  rcases step_written_cases w s with ⟨-, -, -, hw⟩ | ⟨a, as, us, hs, hmove, -, -⟩ | ⟨us, -, -, -, hw⟩
  · exact hw
  · have hturn : s.turns = .host :: us := by simpa [hb] using hmove
    simp [hs, hturn] at hdue
  · exact hw

theorem writtenAfter_powerCycle {s : State} {as : List HostStep} (w : Written) (hb : s.busy = false)
    (hs : s.script = .powerCycle :: as) : writtenAfter w s = [] := by
  simp [writtenAfter, nextTurn, hb, hs, writtenBy]

/-- Settles O58: by what the step is, no move, the host's next action or the engine's completion. -/
theorem whatTheHostHasWrittenStaysListed : Obligations.WhatTheHostHasWrittenStaysListed :=
  ⟨fun _ _ _ => step_lists, fun _ _ hb hs w => writtenAfter_powerCycle w hb hs,
    fun _ _ w => writtenAfter_of_engine w⟩

end Sys2Proof.Machine
end

section
/-! PROOFS. Other contents at power-on (`70_reset_and_hazards.md` R120, `93_implementation_defined.md` U4): where the bytes a
command reads are listed, which power-on the others date from enters neither its outcome nor a run. -/

namespace Sys2Proof.Machine

/-! ### Another power-on -/

/-- `s` with the unwritten bytes of another power-on, and with other values read by the host. -/
def State.repowered (s : State) (e : Nat) (seen : List Reading) : State := { s with epoch := e, seen := seen }

/-- The outcome with its next state changed by `f`. -/
def onNext (f : State → State) : Host.Outcome State Fault Refusal → Host.Outcome State Fault Refusal
  | .next t => .next (f t)
  | .fault r => .fault r
  | .refused r => .refused r

@[simp] theorem onNext_next (f : State → State) (t : State) : onNext f (.next t) = .next (f t) := rfl

section
variable {s : State} (e : Nat) (seen : List Reading)

/-! The operands, and the populated memory, stand in registers and parameters. -/

@[simp] theorem dimsBad_repowered : dimsBad (s.repowered e seen) = dimsBad s := rfl
@[simp] theorem slotCount_repowered : slotCount (s.repowered e seen) = slotCount s := rfl
@[simp] theorem wholeBytes_repowered : wholeBytes (s.repowered e seen) = wholeBytes s := rfl
@[simp] theorem payloadLength_repowered : payloadLength (s.repowered e seen) = payloadLength s := rfl
@[simp] theorem bitsNeeded_repowered : bitsNeeded (s.repowered e seen) = bitsNeeded s := rfl
@[simp] theorem unpopulatedSpace_repowered (n k : Nat) :
    unpopulatedSpace (s.repowered e seen) n k = unpopulatedSpace s n k := rfl

/-! ### A grid that is listed -/

section
variable (hpix : ∀ a < gridBytes s, (s.pix.byteAt? a).isSome)
include hpix

theorem slotBit_repowered {n : Nat} (hn : n < slotCount s) : slotBit (s.repowered e seen) n = slotBit s n :=
  congrArg (·.getLsbD 0) (Memory.read_of_isSome _ _ (hpix _ (slotAddr_lt_gridBytes s hn)))

theorem lsbByte_repowered {k : Nat} (hk : k < wholeBytes s) : lsbByte (s.repowered e seen) k = lsbByte s k := by
  apply lsbByte_congr
  intro j hj
  apply slotBit_repowered e seen hpix
  unfold wholeBytes at hk
  omega

theorem matchAt_repowered {k : Nat} (hk : k < wholeBytes s) : matchAt (s.repowered e seen) k ↔ matchAt s k := by
  refine and_congr_right fun h8 => forall₂_congr fun i hi => ?_
  have hi9 : i < 9 := hi
  rw [lsbByte_repowered e seen hpix (by omega)]

theorem stopsAt_repowered {k : Nat} (h : stopsAt s k) : stopsAt (s.repowered e seen) k := by
  obtain ⟨hk, hm, hno⟩ := h
  exact ⟨hk, (matchAt_repowered e seen hpix hk).2 hm, fun j hj hmj =>
    hno j hj ((matchAt_repowered e seen hpix (hj.trans hk)).1 hmj)⟩

theorem writeBytes_repowered (lands : Nat → Bool) {n : Nat} (hn : n ≤ wholeBytes s) :
    writeBytes (s.repowered e seen) lands n = writeBytes s lands n := by
  induction n with
  | zero => rfl
  | succ n ih => rw [writeBytes, writeBytes, ih (by omega), lsbByte_repowered e seen hpix hn]

/-- The scan goes the same way: it tests only bytes it has stored. -/
theorem scanGrid_repowered : scanGrid (s.repowered e seen) = scanGrid s := by
  rcases scanGrid_cases s with ⟨k, hk, h⟩ | ⟨hno, h⟩ <;> rw [h]
  · rw [scanGrid_found (stopsAt_repowered e seen hpix hk), storeBytes, writeBytes_repowered e seen hpix _ hk.1]
  · have hno' : ∀ k < wholeBytes s, ¬ matchAt (s.repowered e seen) k := fun k hk hm =>
      hno k hk ((matchAt_repowered e seen hpix hk).1 hm)
    rw [scanGrid_exhausted hno', wholeBytes_repowered, storeBytes, writeBytes_repowered e seen hpix _ le_rfl]

theorem scanUnpopulated_repowered : scanUnpopulated (s.repowered e seen) = scanUnpopulated s := by
  rw [scanUnpopulated, scanUnpopulated, scanGrid_repowered e seen hpix]
  cases scanGrid s <;> rfl

/-- The bytes recovered are bytes it has stored. -/
theorem recovered_repowered {k : Nat} (hk : k < wholeBytes s) :
    (storeBytes s (k + 1)).readList (Config.powerOnByte e .pay) 0 (k - 8) =
      (storeBytes s (k + 1)).readList (Config.powerOnByte s.epoch .pay) 0 (k - 8) := by
  have hrec := recovered_eq (s.repowered e []) (k - 8) (k + 1) (by omega)
  rw [storeBytes, writeBytes_repowered e [] hpix _ hk] at hrec
  rw [recovered_eq s _ _ (by omega)]
  refine hrec.trans (List.map_congr_left fun i hi => ?_)
  rw [List.mem_range] at hi
  exact lsbByte_repowered e [] hpix (by omega)

theorem endScan_repowered :
    endScan (s.repowered e seen) (scanGrid s) = (endScan s (scanGrid s)).repowered e seen := by
  rcases scanGrid_cases s with ⟨k, hk, h⟩ | ⟨hno, h⟩ <;> rw [h]
  · have hrec := recovered_repowered e hpix hk.1
    simp only [endScan, State.repowered, hrec]
    split <;> rfl
  · rfl

theorem execExtract_repowered :
    execExtract (s.repowered e seen) = onNext (·.repowered e seen) (execExtract s) := by
  simp only [execExtract, dimsBad_repowered, scanUnpopulated_repowered e seen hpix, scanGrid_repowered e seen hpix,
    endScan_repowered e seen hpix, apply_ite (onNext _)]
  cases scanUnpopulated s <;> rfl

theorem abandonExtract_repowered :
    abandonExtract (s.repowered e seen) = onNext (·.repowered e seen) (abandonExtract s) := by
  simp only [abandonExtract, dimsBad_repowered, scanUnpopulated_repowered e seen hpix, wholeBytes_repowered,
    writeBytes_repowered e seen hpix _ le_rfl, apply_ite (onNext _)]
  cases scanUnpopulated s <;> rfl

/-! ### And a payload that is listed -/

variable (hpay : ∀ k < payloadLength s, (s.pay.byteAt? k).isSome)
include hpay

omit hpix in
theorem streamBit_repowered (n : Nat) : streamBit (s.repowered e seen) n = streamBit s n := by
  unfold streamBit streamByte
  rw [payloadLength_repowered]
  split
  · exact congrArg (·.getLsbD (7 - n % 8)) (Memory.read_of_isSome _ _ (hpay _ ‹_›))
  · rfl

theorem writeSlots_repowered (lands : Nat → Bool) {n : Nat} (hn : n ≤ slotCount s) :
    writeSlots (s.repowered e seen) lands n = writeSlots s lands n := by
  induction n with
  | zero => rfl
  | succ n ih =>
    have hlisted := writeSlots_listed lands n (hpix _ (slotAddr_lt_gridBytes s hn))
    have hread := Memory.read_of_isSome (Config.powerOnByte e .pix) (Config.powerOnByte s.epoch .pix) hlisted
    simp only [writeSlots, ih (by omega), streamBit_repowered e seen hpay]
    simp only [State.repowered, hread]

theorem execEmbed_repowered :
    execEmbed (s.repowered e seen) = onNext (·.repowered e seen) (execEmbed s) := by
  simp only [execEmbed, dimsBad_repowered, slotCount_repowered, bitsNeeded_repowered, payloadLength_repowered,
    unpopulatedSpace_repowered, apply_ite (onNext _)]
  refine if_ctx_congr Iff.rfl (fun _ => rfl) fun _ => ?_
  refine if_ctx_congr Iff.rfl (fun _ => rfl) fun hfit => ?_
  rw [writeSlots_repowered e seen hpix hpay _ (Nat.le_of_not_lt hfit)]
  cases unpopulatedSpace s (bitsNeeded s) (payloadLength s) with
  | some sp => rfl
  | none => simp only [onNext, completeOk, finish, State.repowered]

theorem abandonEmbed_repowered :
    abandonEmbed (s.repowered e seen) = onNext (·.repowered e seen) (abandonEmbed s) := by
  simp only [abandonEmbed, dimsBad_repowered, slotCount_repowered, bitsNeeded_repowered, payloadLength_repowered,
    unpopulatedSpace_repowered, apply_ite (onNext _)]
  refine if_ctx_congr Iff.rfl (fun _ => rfl) fun hfit => ?_
  rw [Bool.or_eq_true, not_or, decide_eq_true_eq, Nat.not_lt] at hfit
  rw [writeSlots_repowered e seen hpix hpay _ hfit.2]
  cases unpopulatedSpace s (bitsNeeded s) (payloadLength s) <;> rfl

end

/-! ### Commands and resets -/

/-- A command that reads listed bytes only does the same. -/
theorem exec_repowered {i : Instr} (h : listedFor i s) :
    exec i (s.repowered e seen) = onNext (·.repowered e seen) (exec i s) := by
  cases i with
  | capacity =>
    simp only [exec, execCapacity, dimsBad_repowered, wholeBytes_repowered, apply_ite (onNext _)]
    rfl
  | embed =>
    obtain ⟨hpix, hpay⟩ := h
    exact execEmbed_repowered e seen hpix hpay
  | extract => exact execExtract_repowered e seen h

/-- So does a reset, where the command it abandons is such a one. -/
theorem hostReset_repowered (h : s.busy = true → ∀ i, opInstr s.op = some i → listedFor i s) :
    hostReset (s.repowered e seen) = onNext (·.repowered e seen) (hostReset s) := by
  have hidle : (s.repowered e seen).busy = s.busy := rfl
  have hop : (s.repowered e seen).op = s.op := rfl
  simp only [hostReset, hidle, hop]
  split
  · rename_i hb
    cases hi : opInstr s.op with
    | none => rfl
    | some i =>
      have hlisted := h hb i hi
      cases i with
      | capacity => rfl
      | embed => exact abandonEmbed_repowered e seen hlisted.1 hlisted.2
      | extract => exact abandonExtract_repowered e seen hlisted
  · rfl

end

/-- Where the host has written what rule R69 asks for, and the memories list it, the command reads listed bytes only. -/
theorem listedFor_of_memoryWritten {i : Instr} {s : State} {w : Written} (hw : s.lists w)
    (h : memoryWrittenFor w i s = true) : listedFor i s := by
  cases i with
  | capacity => trivial
  | embed =>
    rw [memoryWrittenFor, Bool.and_eq_true, decide_eq_true_eq, decide_eq_true_eq] at h
    obtain ⟨hpix, hpay⟩ := h
    exact ⟨fun a ha => hw _ (hpix a ha), fun k hk => hw _ (hpay k hk)⟩
  | extract =>
    rw [memoryWrittenFor, decide_eq_true_eq] at h
    exact fun a ha => hw _ (h a ha)

/-- Settles O43: a command that reads listed bytes only commutes with a change of the power-on, and it leaves the epoch
and the host's readings alone. -/
theorem powerOnContentsDoNotMatterOnceWritten : Obligations.PowerOnContentsDoNotMatterOnceWritten := by
  refine fun i s => ⟨fun t e hlisted h => ?_, fun w => listedFor_of_memoryWritten⟩
  obtain ⟨p, q, err, r, rfl, -⟩ := exec_next h
  exact (exec_repowered e s.seen hlisted).trans (congrArg (onNext _) h)

/-! ### Two runs from different power-ons -/

/-- `u` is `s` but for the power-on and for what the host has read of the memories. -/
def AlikeButForPower (s u : State) : Prop :=
  ∃ e seen, u = s.repowered e seen ∧ ∀ n, lastRead n seen = lastRead n s.seen

theorem regWriteIdle_repowered (s : State) (e : Nat) (seen : List Reading) (n : Nat) (v : Word) :
    regWriteIdle (s.repowered e seen) n v = (regWriteIdle s n v).repowered e seen := by
  match n with
  | 0 =>
    simp only [regWriteIdle, issue]
    cases decode v <;> rfl
  | 1 | 2 | 3 | 4 | 5 | _ + 6 => rfl

/-- A register write reads no memory and nothing the host has read. -/
theorem regWrite_repowered (s : State) (e : Nat) (seen : List Reading) (n : Nat) (v : Word) :
    regWrite (s.repowered e seen) n v = (regWrite s n v).repowered e seen := by
  have hb : (s.repowered e seen).busy = s.busy := rfl
  simp only [regWrite, hb, regWriteIdle_repowered, apply_ite (State.repowered · e seen)]

theorem regWrite_seen (s : State) (n : Nat) (v : Word) : (regWrite s n v).seen = s.seen := by
  rcases regWrite_cases s n v with ⟨-, e⟩ | ⟨-, hn, e⟩ | ⟨-, -, -, e⟩ | ⟨-, -, i, -, e⟩ <;> rw [e]
  · exact regWriteIdle_seen s n v hn
  · rfl

/-- The host's actions keep two states alike, a reset where the command it abandons reads listed bytes only. -/
theorem hostAct_alikeButForPower {s t u : State} {a : HostStep} (h : AlikeButForPower s u)
    (hlisted : s.busy = true → ∀ i, opInstr s.op = some i → listedFor i s) (e : hostAct s a = .next t) :
    ∃ v, hostAct u a = .next v ∧ AlikeButForPower t v := by
  obtain ⟨n, seen, rfl, hseen⟩ := h
  cases a with
  | regRead m =>
    cases e
    exact ⟨_, rfl, n, .reg m (regValue s m) :: seen, rfl, fun k => by simp [hostRegRead, hseen]⟩
  | regWrite m v =>
    cases e
    refine ⟨_, rfl, n, seen, regWrite_repowered s n seen m v, ?_⟩
    rwa [regWrite_seen]
  | memRead sp a =>
    obtain ⟨hb, hpop, rfl⟩ := hostMemRead_next e
    have hpop' : a.toNat < (s.repowered n seen).pop sp := by cases sp <;> exact hpop
    exact ⟨_, shows_memRead (s := s.repowered n seen) hb hpop' s.script s.turns seen, n, _, rfl, hseen⟩
  | memWrite sp a v =>
    obtain ⟨hb, hpop, rfl⟩ := hostMemWrite_next e
    have hpop' : a.toNat < (s.repowered n seen).pop sp := by cases sp <;> exact hpop
    refine ⟨_, hostMemWrite_idle (s := s.repowered n seen) hb hpop' v, n, seen, by cases sp <;> rfl, ?_⟩
    rwa [State.putByte_seen]
  | wait =>
    cases e
    rcases hostWait_cases s with ⟨hd, e⟩ | ⟨hd, e⟩ <;> rw [e]
    · exact ⟨_, congrArg _ (hostWait_done (s := s.repowered n seen) hd), n, .reg 1 (statusWord s) :: seen, rfl,
        fun k => by simp [hostRegRead, regValue, hseen]⟩
    · exact ⟨_, congrArg _ (hostWait_pending (s := s.repowered n seen) hd), n, .reg 1 (statusWord s) :: seen, rfl,
        fun k => by simp [hostRegRead, regValue, hseen]⟩
  | reset =>
    have hsame := (hostReset_repowered n seen hlisted).trans (congrArg (onNext _) e)
    obtain ⟨p, q, d, rfl, -⟩ := hostReset_next e
    exact ⟨_, hsame, n, seen, rfl, hseen⟩
  | powerCycle =>
    cases e
    exact ⟨_, rfl, n + 1, seen, rfl, hseen⟩

/-- The engine's completion does too. -/
theorem engineAct_alikeButForPower {s t u : State} (h : AlikeButForPower s u)
    (hlisted : ∀ i, opInstr s.op = some i → listedFor i s) (e : engineAct s = .next t) :
    ∃ v, engineAct u = .next v ∧ AlikeButForPower t v := by
  obtain ⟨n, seen, rfl, hseen⟩ := h
  have hop : (s.repowered n seen).op = s.op := rfl
  rw [engineAct, hop]
  unfold engineAct at e
  cases hi : opInstr s.op with
  | none => rw [hi] at e; cases e
  | some i =>
    rw [hi] at e
    have hsame := (exec_repowered n seen (hlisted i hi)).trans (congrArg (onNext _) e)
    obtain ⟨p, q, err, r, rfl, -⟩ := exec_next e
    exact ⟨_, hsame, n, seen, rfl, hseen⟩

/-- The two take the same move. -/
theorem step_repowered_cases (s : State) (n : Nat) (seen : List Reading) :
    (step s = .next s ∧ step (s.repowered n seen) = .next (s.repowered n seen)) ∨
    (∃ a as ts, step s = hostAct { s with script := as, turns := ts } a ∧
      step (s.repowered n seen) = hostAct (({ s with script := as, turns := ts } : State).repowered n seen) a) ∨
    ∃ ts, s.busy = true ∧ step s = engineAct { s with turns := ts } ∧
      step (s.repowered n seen) = engineAct (({ s with turns := ts } : State).repowered n seen) := by
  unfold step nextTurn
  dsimp only [State.repowered]
  split
  · exact .inl ⟨rfl, rfl⟩
  · exact .inr (.inl ⟨_, _, s.turns, rfl, rfl⟩)
  · exact .inr (.inr ⟨s.turns, ‹_›, rfl, rfl⟩)
  · exact .inr (.inr ⟨s.turns, ‹_›, rfl, rfl⟩)
  · exact .inr (.inl ⟨_, _, _, rfl, rfl⟩)
  · exact .inr (.inr ⟨_, ‹_›, rfl, rfl⟩)

/-- One step of two runs, the first keeping `memory_written`. -/
theorem step_alikeButForPower {s t u : State} {w : Written} (h : AlikeButForPower s u) (hw : s.lists w)
    (hc : commandWritten w s = true) (e : step s = .next t) : ∃ v, step u = .next v ∧ AlikeButForPower t v := by
  obtain ⟨n, seen, rfl, hseen⟩ := h
  have hlisted (hb : s.busy = true) (i : Instr) (hi : opInstr s.op = some i) : listedFor i s :=
    listedFor_of_memoryWritten hw (commandWritten_busy hc hb hi)
  rcases step_repowered_cases s n seen with ⟨hs, hu⟩ | ⟨a, as, ts, hs, hu⟩ | ⟨ts, hb, hs, hu⟩ <;>
    rw [hs] at e <;> rw [hu]
  · cases e
    exact ⟨_, rfl, n, seen, rfl, hseen⟩
  · exact hostAct_alikeButForPower (s := { s with script := as, turns := ts }) ⟨n, seen, rfl, hseen⟩ hlisted e
  · exact engineAct_alikeButForPower (s := { s with turns := ts }) ⟨n, seen, rfl, hseen⟩ (hlisted hb) e

theorem runFor_alikeButForPower {k : Nat} {s t u : State} {w : Written} (h : AlikeButForPower s u) (hw : s.lists w)
    (hrun : memoryWrittenRun k w s = true) (e : runFor k s = .next t) :
    ∃ v, runFor k u = .next v ∧ AlikeButForPower t v := by
  induction k generalizing s u w with
  | zero =>
    cases e
    exact ⟨u, rfl, h⟩
  | succ k ih =>
    obtain ⟨s', hstep, e⟩ := runFor_succ_next e
    obtain ⟨hc, hrest⟩ := memoryWrittenRun_succ_next hrun hstep
    obtain ⟨u', hstep', h'⟩ := step_alikeButForPower h hw hc hstep
    rw [runFor_succ_of_next hstep']
    exact ih h' (step_lists hw hstep) hrest e

/-- Settles O59: step by step, two runs that differ in the power-on stay alike. -/
theorem powerOnContentsDoNotMatterToARun : Obligations.PowerOnContentsDoNotMatterToARun := by
  intro k s t w e hw hrun h
  obtain ⟨u, hu, n, seen, rfl, hseen⟩ :=
    runFor_alikeButForPower (u := { s with epoch := e }) ⟨e, s.seen, rfl, fun _ => rfl⟩ hw hrun h
  exact ⟨_, hu, rfl, hseen⟩

end Sys2Proof.Machine
end

section
/-! PROOFS. CAPACITY (`41_capacity.md` R70 to R74): its result as a number and in the 32-bit datapath, its error read
off the `DIM` fields, and that it depends on `WIDTH` and `HEIGHT` alone. -/

namespace Sys2Proof.Machine

/-! ### A dimension field as an integer -/

/-- A `DIM` field is not positive exactly when it is zero or its sign bit is set (R71). -/
theorem dim_nonpos_iff (x : Dim) : x.toInt ≤ 0 ↔ x = 0 ∨ x.getLsbD 15 = true := by
  have hzero : x.toInt = 0 ↔ x = 0 := by rw [← BitVec.toInt_inj]; rfl
  have hneg : x.toInt < 0 ↔ x.getLsbD 15 = true := by
    rw [← decide_eq_true_iff (p := x.toInt < 0), ← BitVec.msb_eq_toInt, BitVec.msb_eq_getLsbD_last]
  rw [le_iff_eq_or_lt, or_comm, hzero, hneg, or_comm]

/-- The two readings of a field, signed and unsigned, agree when it is positive. -/
theorem dim_toNat_of_pos {x : Dim} (h : 0 < x.toInt) : (x.toNat : Int) = x.toInt :=
  (BitVec.toInt_eq_toNat_of_msb (by simpa [BitVec.msb_eq_toInt] using h.le)).symm

theorem not_legalGrid_iff (s : State) : ¬ legalGrid s ↔ s.width.toInt ≤ 0 ∨ s.height.toInt ≤ 0 := by
  simp only [legalGrid, gridWidth, gridHeight, not_and_or, not_lt]

/-! ### The result on a legal grid -/

section
variable {s : State} (hg : legalGrid s)
include hg

/-- The unsigned 32-bit product is `T`: it does not wrap (R72). -/
theorem datapath_toNat : (s.width.setWidth 32 * s.height.setWidth 32 * 3#32).toNat = slotCount s := by
  have hT := slotCount_eq_int s hg
  have hbound := slotCount_le s hg
  have hw : (s.width.toNat : Int) = gridWidth s := dim_toNat_of_pos hg.1
  have hh : (s.height.toNat : Int) = gridHeight s := dim_toNat_of_pos hg.2
  have hprod : slotCount s = s.width.toNat * s.height.toNat * 3 := by
    rw [← hw, ← hh] at hT
    exact_mod_cast hT
  have hlt : s.width.toNat * s.height.toNat * 3 < 2 ^ 32 := by omega
  rw [hprod]
  simpa using hlt

/-- The count of whole bytes fits `RESULT` (R72). -/
theorem wholeBytes_toNat : (BitVec.ofNat 32 (wholeBytes s)).toNat = wholeBytes s := by
  have := wholeBytes_le s hg
  rw [BitVec.toNat_ofNat, Nat.mod_eq_of_lt (by omega)]

/-- The division by 8 is a logical shift by 3 (R72). -/
theorem wholeBytes_eq_shift :
    BitVec.ofNat 32 (wholeBytes s) = (s.width.setWidth 32 * s.height.setWidth 32 * 3#32) >>> 3 := by
  apply BitVec.eq_of_toNat_eq
  rw [wholeBytes_toNat hg, BitVec.toNat_ushiftRight, datapath_toNat hg, Nat.shiftRight_eq_div_pow, wholeBytes]

/-- `usable_bytes = floor(w * h * 3 / 8)` as an integer (R73). -/
theorem wholeBytes_eq_int : (wholeBytes s : Int) = gridWidth s * gridHeight s * 3 / 8 := by
  rw [wholeBytes, Int.natCast_ediv, slotCount_eq_int s hg]
  rfl

end

/-- Settles O20: the two outcomes of CAPACITY, with the arithmetic of R72. -/
theorem capacityCompletesWithTheFloor : Obligations.CapacityCompletesWithTheFloor := by
  constructor
  · intro s hbad
    rw [← not_legalGrid_iff] at hbad
    rcases execCapacity_cases s with ⟨-, e⟩ | ⟨hg, -⟩
    · exact e
    · exact absurd hg hbad
  · intro s hw hh
    have hg : legalGrid s := ⟨hw, hh⟩
    have hfloor := wholeBytes_eq_int hg
    refine ⟨_, (execCapacity_next_iff hg).2 rfl, ?_, wholeBytes_eq_shift hg, ?_⟩
    · rw [wholeBytes_toNat hg]
      exact hfloor
    · rw [wholeBytes_toNat hg, hfloor]
      change _ ↔ gridWidth s * gridHeight s < 24
      omega

/-- Settles O21: CAPACITY's two outcomes, told apart by the two fields. -/
theorem capacityRaisesInvalidDimensionsExactly : Obligations.CapacityRaisesInvalidDimensionsExactly := by
  intro s
  have hfields : s.width.toInt ≤ 0 ∨ s.height.toInt ≤ 0 ↔
      s.width = 0 ∨ s.width.getLsbD 15 = true ∨ s.height = 0 ∨ s.height.getLsbD 15 = true := by
    rw [dim_nonpos_iff, dim_nonpos_iff, or_assoc]
  rw [← hfields, ← not_legalGrid_iff]
  rcases execCapacity_cases s with ⟨hbad, e⟩ | ⟨hg, e⟩
  · have herr := iff_of_true (rfl (a := ErrKind.invalidDimensions)) ((dimsBad_eq_true_iff s).1 hbad)
    exact ⟨_, e, herr, herr, fun _ => rfl⟩
  · have hne : ErrKind.none ≠ .invalidDimensions := nofun
    have herr := iff_of_false hne (not_not_intro hg)
    exact ⟨_, e, herr, herr, fun h => absurd h hne⟩

/-! ### Purity -/

/-- CAPACITY always ends the command, and does nothing else (R70, R74). -/
theorem execCapacity_eq_finish (s : State) : ∃ e r, execCapacity s = .next (finish s e r) := by
  rcases execCapacity_cases s with ⟨-, e⟩ | ⟨-, e⟩
  · exact ⟨_, _, e⟩
  · exact ⟨_, _, e⟩

/-- What it reports depends on `WIDTH` and `HEIGHT` only (R74). -/
theorem execCapacity_finish_congr {s s' : State} {e : ErrKind} {r : Word} (hw : s'.width = s.width)
    (hh : s'.height = s.height) (h : execCapacity s = .next (finish s e r)) :
    execCapacity s' = .next (finish s' e r) := by
  have hgw : gridWidth s' = gridWidth s := by rw [gridWidth, gridWidth, hw]
  have hgh : gridHeight s' = gridHeight s := by rw [gridHeight, gridHeight, hh]
  have hbad : dimsBad s' = dimsBad s := by rw [dimsBad, dimsBad, hgw, hgh]
  have hbytes : wholeBytes s' = wholeBytes s := by rw [wholeBytes, wholeBytes, slotCount, slotCount, hgw, hgh]
  unfold execCapacity at h ⊢
  rw [hbad, hbytes]
  split at h <;> cases h
  · exact if_pos ‹_›
  · exact if_neg ‹_›

/-- Settles O22: the report is a function of the two fields, which CAPACITY keeps. -/
theorem capacityIsPure : Obligations.CapacityIsPure := by
  intro s
  obtain ⟨e, r, h⟩ := execCapacity_eq_finish s
  refine ⟨finish s e r, h, rfl, execCapacity_finish_congr rfl rfl h, ?_⟩
  intro s' t' hw hh h'
  cases h'.symm.trans (execCapacity_finish_congr hw hh h)
  exact ⟨rfl, rfl⟩

end Sys2Proof.Machine
end

section
/-! PROOFS. EMBED (`42_embed.md` R75 to R84): the BitStream read off `PAY[0 .. L) ++ DELIM`, the test of the capacity,
the state a completed EMBED leaves and what each byte of it reads as. -/

namespace Sys2Proof.Machine

/-! ### The BitStream -/

/-- The bytes of the stream are those of the list `PAY[0 .. L) ++ DELIM` (R79). -/
theorem getElem?_payloadBytes_append_delim (s : State) {k : Nat} (hk : k < payloadLength s + delimLength) :
    (payloadBytes s ++ delim)[k]? = some (streamByte s k) := by
  have hlen : (payloadBytes s).length = payloadLength s := by simp [payloadBytes]
  by_cases h : k < payloadLength s
  · rw [List.getElem?_append_left (by rwa [hlen]), streamByte, if_pos h]
    simp [payloadBytes, h]
  · rw [List.getElem?_append_right (by omega), hlen, delim_getElem?, if_pos (by omega), streamByte, if_neg h]

/-- The delimiter follows the payload. -/
theorem streamByte_payloadLength_add (s : State) (i : Nat) : streamByte s (payloadLength s + i) = delimByte i := by
  simp [streamByte]

/-- Bit `j` of byte `k`, from the most significant on, is bit `8k + j` of the stream (R79). -/
theorem streamBit_byte (s : State) (k : Nat) {j : Nat} (hj : j < 8) :
    streamBit s (8 * k + j) = (streamByte s k).getLsbD (7 - j) := by
  rw [streamBit, show (8 * k + j) / 8 = k by omega, show (8 * k + j) % 8 = j by omega]

/-- The 72 bits of `###END###`, as R79 writes them out. -/
theorem delimByte_bits : ∀ n < 72, (delimByte (n / 8)).getLsbD (7 - n % 8) =
    (0b001000110010001100100011010001010100111001000100001000110010001100100011#72).getLsbD (71 - n) := by
  decide

/-- Settles O26: a bit below `8 * L` lies in the payload, and the 72 bits after it in the delimiter. -/
theorem bitStreamIsPayloadThenDelimiter : Obligations.BitStreamIsPayloadThenDelimiter := by
  intro s
  constructor
  · intro n hn
    have hbyte : n / 8 < s.payLen.toNat + 9 := by omega
    rw [getElem?_payloadBytes_append_delim s hbyte]
    rfl
  · intro n hn
    rw [← delimByte_bits n hn, ← streamByte_payloadLength_add s, ← streamBit_byte s _ (by omega), payloadLength]
    congr 1
    omega

/-! ### The channel update -/

/-- The channel update keeps all bits but the lowest (R80). -/
theorem setLsb_toNat_div_two (old : Byte) (b : Bool) : (setLsb old b).toNat / 2 = old.toNat / 2 := by
  have hshift : setLsb old b >>> 1 = old >>> 1 := by
    apply BitVec.eq_of_getLsbD_eq
    intro i hi
    rw [BitVec.getLsbD_ushiftRight, BitVec.getLsbD_ushiftRight]
    by_cases h : 1 + i < 8
    · rw [setLsb_getLsbD _ _ _ h, if_neg (by omega)]
    · rw [BitVec.getLsbD_of_ge _ _ (by omega), BitVec.getLsbD_of_ge _ _ (by omega)]
  simpa [Nat.shiftRight_eq_div_pow] using congrArg BitVec.toNat hshift

/-! ### The test of the capacity -/

/-- The test `N > T` fails exactly when `L + 9` is at most the capacity in bytes (R77). -/
theorem bitsNeeded_le_slotCount_iff (s : State) :
    bitsNeeded s ≤ slotCount s ↔ payloadLength s + delimLength ≤ wholeBytes s := by
  unfold bitsNeeded wholeBytes
  omega

/-- On a legal grid the test is the comparison of unbounded integers (R77). -/
theorem bitsNeeded_le_slotCount_iff_int {s : State} (hg : legalGrid s) :
    bitsNeeded s ≤ slotCount s ↔ (8 * (s.payLen.toNat + 9) : Int) ≤ gridWidth s * gridHeight s * 3 := by
  rw [← slotCount_eq_int s hg]
  unfold bitsNeeded payloadLength delimLength
  omega

/-! ### The state a completed EMBED leaves -/

/-- The state that EMBED leaves when it completes without error (R75). -/
def embedded (s : State) : State :=
  finish { s with pix := writeSlots s (fun _ => true) (bitsNeeded s) } .none (BitVec.ofNat 32 (bitsNeeded s))

/-- It differs from `s` in PIX, `STATUS` and `RESULT` alone (R83).  The new PIX is generalized first, so that comparing
the states does not unroll the slot loop. -/
theorem embedded_frame (s : State) :
    embedded s = { s with
      pix := (embedded s).pix, result := (embedded s).result, err := .none, done := true, busy := false } := by
  unfold embedded
  generalize writeSlots s (fun _ => true) (bitsNeeded s) = p
  rfl

/-- A slot of the stream holds its updated channel byte (R80). -/
theorem embedded_byte_slot (s : State) {n : Nat} (hn : n < bitsNeeded s) :
    (embedded s).byte .pix (slotAddr s.alpha n) = setLsb (s.byte .pix (slotAddr s.alpha n)) (streamBit s n) := by
  rw [embedded, State.byte_finish, State.byte_setPix_pix]
  exact writeSlots_read_slot s (fun _ => true) _ n hn

/-- Every other byte of PIX is what it was (R81, R83). -/
theorem embedded_byte_other (s : State) {a : Nat} (ha : ∀ n < bitsNeeded s, a ≠ slotAddr s.alpha n) :
    (embedded s).byte .pix a = s.byte .pix a := by
  rw [embedded, State.byte_finish, State.byte_setPix_pix]
  exact writeSlots_read_other s (fun _ => true) _ a ha

/-- A slot behind the stream is such a byte (R81). -/
theorem embedded_byte_slot_of_ge (s : State) {n : Nat} (hn : bitsNeeded s ≤ n) :
    (embedded s).byte .pix (slotAddr s.alpha n) = s.byte .pix (slotAddr s.alpha n) :=
  embedded_byte_other s fun i hi e => by
    have := slotAddr_injective _ e
    omega

@[simp] theorem embedded_byte_pay (s : State) (a : Nat) : (embedded s).byte .pay a = s.byte .pay a := by
  rw [embedded, State.byte_finish, State.byte_setPix_pay]

@[simp] theorem streamBit_embedded (s : State) (n : Nat) : streamBit (embedded s) n = streamBit s n := rfl

/-- Bits 7 to 1 of every byte of PIX stay (R80). -/
theorem embedded_byte_toNat_div_two (s : State) (a : Nat) :
    ((embedded s).byte .pix a).toNat / 2 = (s.byte .pix a).toNat / 2 := by
  by_cases h : ∃ n < bitsNeeded s, a = slotAddr s.alpha n
  · obtain ⟨n, hn, rfl⟩ := h
    rw [embedded_byte_slot s hn, setLsb_toNat_div_two]
  · push Not at h
    rw [embedded_byte_other s h]

/-- The slots' bits: the stream, then what the grid held (R83, R84). -/
theorem slotBit_embedded (s : State) (n : Nat) :
    slotBit (embedded s) n = if n < bitsNeeded s then streamBit s n else slotBit s n := by
  change ((embedded s).byte .pix (slotAddr s.alpha n)).getLsbD 0 = _
  split
  · rw [embedded_byte_slot s ‹_›, setLsb_lsb]
  · rw [embedded_byte_slot_of_ge s (Nat.le_of_not_lt ‹_›), slotBit]

/-- The grid's LSB byte stream begins with the bytes of the stream (R83). -/
theorem lsbByte_embedded (s : State) {k : Nat} (hk : k < payloadLength s + delimLength) :
    lsbByte (embedded s) k = streamByte s k := by
  refine (eq_lsbByte_of_bits (embedded s) k _ fun j hj => ?_).symm
  have hslot : 8 * k + j < bitsNeeded s := by unfold bitsNeeded; omega
  rw [slotBit_embedded, if_pos hslot, streamBit_byte s k hj]

/-- A second EMBED of the same payload leaves every byte as the first one did (R84). -/
theorem embedded_embedded_byte (s : State) (sp : Space) (a : Nat) :
    (embedded (embedded s)).byte sp a = (embedded s).byte sp a := by
  cases sp with
  | pay => rw [embedded_byte_pay]
  | pix =>
    by_cases h : ∃ n < bitsNeeded s, a = slotAddr s.alpha n
    · obtain ⟨n, hn, rfl⟩ := h
      have hsecond := embedded_byte_slot (embedded s) hn
      rw [streamBit_embedded] at hsecond
      refine hsecond.trans ?_
      change setLsb ((embedded s).byte .pix (slotAddr s.alpha n)) (streamBit s n) = _
      rw [embedded_byte_slot s hn, setLsb_setLsb]
    · push Not at h
      exact embedded_byte_other (embedded s) h

/-! ### What EMBED answers -/

theorem execEmbed_of_not_legal {s : State} (hbad : ¬ legalGrid s) :
    execEmbed s = .next (finish s .invalidDimensions 0) :=
  if_pos ((dimsBad_eq_true_iff s).2 hbad)

/-- Settles O23: the test of the dimensions comes first. -/
theorem embedRaisesInvalidDimensionsFirst : Obligations.EmbedRaisesInvalidDimensionsFirst := by
  intro s hbad
  exact execEmbed_of_not_legal ((not_legalGrid_iff s).2 hbad)

section
variable {s : State} (hg : legalGrid s)
include hg

theorem execEmbed_of_over (hover : slotCount s < bitsNeeded s) : execEmbed s = .next (finish s .capacityExceeded 0) :=
  (execEmbed_next_iff hg).2 (.inl ⟨hover, rfl⟩)

/-- A stream that fits is written, where the grid and the payload are populated. -/
theorem execEmbed_of_fits (hpop : populatedFor .embed s) (hfit : bitsNeeded s ≤ slotCount s) :
    execEmbed s = .next (embedded s) := by
  obtain ⟨hslots, hbytes⟩ := embed_reached_of_fits hg hfit
  have hreach := reached_populated hpop
  rw [hslots, hbytes] at hreach
  exact (execEmbed_next_iff hg).2 (.inr ⟨hfit, hreach, rfl⟩)

/-- `N` fits `RESULT`, where it fits the grid (R75). -/
theorem embedded_result_toNat (hfit : bitsNeeded s ≤ slotCount s) : (embedded s).result.toNat = bitsNeeded s := by
  have := slotCount_le s hg
  rw [embedded, finish_result, BitVec.toNat_ofNat, Nat.mod_eq_of_lt (by omega)]

/-- Where the memory is populated, EMBED succeeds exactly when the stream fits (R77, R78). -/
theorem execEmbed_succeeds_iff (hpop : populatedFor .embed s) :
    (∃ t, execEmbed s = .next t ∧ t.err = .none) ↔ bitsNeeded s ≤ slotCount s := by
  constructor
  · rintro ⟨t, e, herr⟩
    rcases (execEmbed_next_iff hg).1 e with ⟨-, rfl⟩ | ⟨hfit, -⟩
    · cases herr
    · exact hfit
  · exact fun hfit => ⟨_, execEmbed_of_fits hg hpop hfit, rfl⟩

end

/-- A next state that EMBED answers is an error's, which changes no memory, or that of a completed EMBED. -/
theorem execEmbed_next_cases {s t : State} (e : execEmbed s = .next t) :
    (∃ err, err ≠ .none ∧ t = finish s err 0) ∨
    (legalGrid s ∧ bitsNeeded s ≤ slotCount s ∧ unpopulatedSpace s (bitsNeeded s) (payloadLength s) = none ∧
      t = embedded s) := by
  rcases execEmbed_cases s with ⟨-, e'⟩ | ⟨-, -, e'⟩ | ⟨-, -, sp, -, e'⟩ | ⟨hg, hfit, hpop, e'⟩ <;>
    cases e'.symm.trans e
  · exact .inl ⟨.invalidDimensions, nofun, rfl⟩
  · exact .inl ⟨.capacityExceeded, nofun, rfl⟩
  · exact .inr ⟨hg, hfit, hpop, rfl⟩

/-- Settles O24: on a legal grid the test `N > T` alone decides, and it is one of integers. -/
theorem embedRaisesCapacityExceededExactly : Obligations.EmbedRaisesCapacityExceededExactly := by
  intro s hg
  rw [gt_iff_lt, ← not_le, ← bitsNeeded_le_slotCount_iff_int hg]
  refine ⟨fun hover => execEmbed_of_over hg (Nat.lt_of_not_le hover), fun hfit t e => ?_,
    bitsNeeded_le_slotCount_iff s⟩
  rcases (execEmbed_next_iff hg).1 e with ⟨hover, -⟩ | ⟨-, -, rfl⟩
  · omega
  · exact nofun

/-- Settles O25: CAPACITY reports `T div 8`, which is below 9 on fewer than 24 pixels. -/
theorem embedSucceedsExactlyWithinCapacity : Obligations.EmbedSucceedsExactlyWithinCapacity := by
  intro s c hg hpop hc
  obtain rfl := (execCapacity_next_iff hg).1 hc
  constructor
  · rw [finish_result, wholeBytes_toNat hg]
    exact (execEmbed_succeeds_iff hg hpop).trans (bitsNeeded_le_slotCount_iff s)
  · intro hsmall
    have hover : slotCount s < bitsNeeded s := by
      have hT := slotCount_eq_int s hg
      unfold bitsNeeded delimLength
      omega
    exact ⟨_, execEmbed_of_over hg hover, rfl⟩

/-- Settles O27: the two tests, and the bytes of the state a completed EMBED leaves. -/
theorem embedWritesTheStreamAndNothingElse : Obligations.EmbedWritesTheStreamAndNothingElse := by
  refine ⟨fun s => execEmbed_of_not_legal, fun s => execEmbed_of_over, fun s hg hpop hfit => ?_⟩
  refine ⟨embedded s, execEmbed_of_fits hg hpop hfit, embedded_frame s, embedded_result_toNat hg hfit,
    fun n => embedded_byte_slot s, fun a => embedded_byte_other s, embedded_byte_pay s, fun k hk => ?_⟩
  rw [lsbByte_embedded s hk, getElem?_payloadBytes_append_delim s hk]

/-- Settles O28: an error leaves PIX as it was, and the channel update keeps bits 7 to 1. -/
theorem embedDistortsAChannelByAtMostOne : Obligations.EmbedDistortsAChannelByAtMostOne := by
  intro s t e
  rcases execEmbed_next_cases e with ⟨err, herr, rfl⟩ | ⟨-, -, -, rfl⟩
  · refine ⟨fun h => absurd h herr, fun a => ?_⟩
    rw [State.byte_finish]
    omega
  · refine ⟨fun _ n => embedded_byte_slot s, fun a => ?_⟩
    have hkept := embedded_byte_toNat_div_two s a
    omega

/-- Settles O29: none of these bytes is a slot of the stream. -/
theorem embedLeavesTheRestUntouched : Obligations.EmbedLeavesTheRestUntouched := by
  intro s t e
  rcases execEmbed_next_cases e with ⟨err, -, rfl⟩ | ⟨-, hfit, -, rfl⟩
  · simp
  · refine ⟨fun n => embedded_byte_slot_of_ge s, fun halpha a ha => embedded_byte_other s fun n _ => ?_,
      fun a ha => embedded_byte_other s fun n hn => ?_, rfl, rfl, rfl, rfl, rfl⟩
    · rw [halpha, slotAddr_true]
      omega
    · have := slotAddr_lt_gridBytes s (hn.trans_le hfit)
      omega

/-- Settles O30: the first EMBED leaves the operands, so the second passes the same tests and writes the same stream. -/
theorem embedTwiceIsEmbedOnce : Obligations.EmbedTwiceIsEmbedOnce := by
  intro s t e herr
  rcases execEmbed_next_cases e with ⟨err, hne, rfl⟩ | ⟨hg, hfit, hpop, rfl⟩
  · exact absurd herr hne
  · have hg' : legalGrid (embedded s) := hg
    exact ⟨slotBit_embedded s, _, (execEmbed_next_iff hg').2 (.inr ⟨hfit, hpop, rfl⟩), rfl, rfl,
      embedded_embedded_byte s⟩

end Sys2Proof.Machine
end

section
/-! PROOFS. `UTF8_VALID` (`43_extract.md` R93): the check of the model cuts a list into sequences, each of which fits a
row of the table. -/

namespace Sys2Proof.Machine

/-! ### Rows and sequences -/

/-- A byte sequence fits a row of the table: its 1st byte lies in the row's first range, and each byte after it in the
range that the row owes there. -/
def Utf8Row.fits (row : Utf8Row) : List Byte → Prop
  | [] => False
  | b :: tail => row.first.has b = true ∧ List.Forall₂ (fun r c => r.has c = true) row.rest tail

theorem ByteRange.has_iff (r : ByteRange) (b : Byte) : r.has b = true ↔ byteWithin r.lo.toNat r.hi.toNat b := by
  simp [ByteRange.has, byteWithin, BitVec.le_def]

/-- The ranges that `wellFormedSequence` writes out are those of the table's rows. -/
theorem wellFormedSequence_iff_fits (q : List Byte) : wellFormedSequence q ↔ ∃ row ∈ utf8Table, row.fits q := by
  match q with
  | [] | [_] | [_, _] | [_, _, _] | [_, _, _, _] | _ :: _ :: _ :: _ :: _ :: _ =>
    simp [wellFormedSequence, Utf8Row.fits, utf8Table, ByteRange.has_iff, contByte, or_and_right, exists_or, and_assoc]

/-- The first ranges of two rows have no byte in common, so a byte leads one row at most. -/
theorem utf8Table_firsts_apart : ∀ row ∈ utf8Table, ∀ row' ∈ utf8Table,
    row = row' ∨ row.first.hi < row'.first.lo ∨ row'.first.hi < row.first.lo := by
  decide

/-- The row that a byte leads is the one whose first range has it. -/
theorem utf8Lead_eq_some_iff (b : Byte) (row : Utf8Row) :
    utf8Lead b = some row ↔ row ∈ utf8Table ∧ row.first.has b = true := by
  refine ⟨utf8Lead_some, fun ⟨hrow, hb⟩ => ?_⟩
  obtain ⟨row', hlead⟩ : ∃ row', utf8Lead b = some row' :=
    Option.isSome_iff_exists.1 (List.find?_isSome.2 ⟨row, hrow, hb⟩)
  obtain ⟨hrow', hb'⟩ := utf8Lead_some hlead
  rw [hlead]
  rw [ByteRange.has_iff] at hb hb'
  obtain ⟨hlo, hhi⟩ := hb
  obtain ⟨hlo', hhi'⟩ := hb'
  rcases utf8Table_firsts_apart row hrow row' hrow' with rfl | hlt | hlt
  · rfl
  · rw [BitVec.lt_def] at hlt; omega
  · rw [BitVec.lt_def] at hlt; omega

/-! ### The check -/

/-- With bytes still owed, the check takes one byte from each owed range and then begins anew. -/
theorem utf8From_iff (owed : List ByteRange) (l : List Byte) :
    utf8From owed l = true ↔
      ∃ tail rest, l = tail ++ rest ∧ List.Forall₂ (fun r c => r.has c = true) owed tail ∧
        utf8Valid rest = true := by
  induction owed generalizing l with
  | nil => simp [utf8Valid]
  | cons r owed ih =>
    cases l with
    | nil => simp [List.forall₂_cons_left_iff]
    | cons b l =>
      rw [utf8From_owed_cons, Bool.and_eq_true, ih]
      constructor
      · rintro ⟨hb, tail, rest, rfl, htail, hrest⟩
        exact ⟨b :: tail, rest, rfl, .cons hb htail, hrest⟩
      · rintro ⟨tail', rest, hl, htail', hrest⟩
        obtain ⟨c, tail, hc, htail, rfl⟩ := List.forall₂_cons_left_iff.1 htail'
        obtain ⟨rfl, rfl⟩ := List.cons.inj hl
        exact ⟨hc, tail, rest, rfl, htail, hrest⟩

/-- A list that is not empty is valid when it begins with a well-formed sequence and the rest of it is valid. -/
theorem utf8Valid_cons_iff (b : Byte) (l : List Byte) :
    utf8Valid (b :: l) = true ↔
      ∃ tail rest, l = tail ++ rest ∧ wellFormedSequence (b :: tail) ∧ utf8Valid rest = true := by
  have hlead : utf8Valid (b :: l) = true ↔ ∃ row, utf8Lead b = some row ∧ utf8From row.rest l = true := by
    rw [utf8Valid_cons]
    cases utf8Lead b <;> simp
  simp only [hlead, utf8Lead_eq_some_iff, utf8From_iff, wellFormedSequence_iff_fits, Utf8Row.fits]
  constructor
  · rintro ⟨row, ⟨hrow, hb⟩, tail, rest, hl, htail, hrest⟩
    exact ⟨tail, rest, hl, ⟨row, hrow, hb, htail⟩, hrest⟩
  · rintro ⟨tail, rest, hl, ⟨row, hrow, hb, htail⟩, hrest⟩
    exact ⟨row, ⟨hrow, hb⟩, tail, rest, hl, htail, hrest⟩

/-- Well-formed sequences, one after the other, are valid. -/
theorem utf8Valid_flatten {qs : List (List Byte)} (h : ∀ q ∈ qs, wellFormedSequence q) :
    utf8Valid qs.flatten = true := by
  induction qs with
  | nil => rfl
  | cons q qs ih =>
    rw [List.forall_mem_cons] at h
    obtain ⟨hq, hqs⟩ := h
    cases q with
    | nil => exact hq.elim
    | cons b tail => exact (utf8Valid_cons_iff b _).2 ⟨tail, qs.flatten, rfl, hq, ih hqs⟩

/-- A valid list can be cut into well-formed sequences. -/
theorem exists_cut_of_utf8Valid (l : List Byte) (h : utf8Valid l = true) :
    ∃ qs : List (List Byte), l = qs.flatten ∧ ∀ q ∈ qs, wellFormedSequence q := by
  match l with
  | [] => exact ⟨[], rfl, nofun⟩
  | b :: l =>
    obtain ⟨tail, rest, hl, hq, hrest⟩ := (utf8Valid_cons_iff b l).1 h
    obtain ⟨qs, rfl, hqs⟩ := exists_cut_of_utf8Valid rest hrest
    exact ⟨(b :: tail) :: qs, congrArg (b :: ·) hl, List.forall_mem_cons.2 ⟨hq, hqs⟩⟩
termination_by l.length
decreasing_by
  rw [hl, List.length_cons, List.length_append]
  omega

/-- Settles O36: cut off one sequence at a time. -/
theorem utf8ValidIsACutIntoWellFormedSequences : Obligations.Utf8ValidIsACutIntoWellFormedSequences := by
  intro l
  constructor
  · exact exists_cut_of_utf8Valid l
  · rintro ⟨qs, rfl, hqs⟩
    exact utf8Valid_flatten hqs

end Sys2Proof.Machine
end

section
/-! PROOFS. EXTRACT (`43_extract.md` R86 to R99): the LSB byte stream as numbers, the ends of the command, of which the
stream decides one, and the state that EXTRACT leaves at each. -/

namespace Sys2Proof.Machine

/-! ### The LSB byte stream -/

theorem shiftIn_eq_concat (acc : Byte) (b : Bool) : shiftIn acc b = (acc.concat b).setWidth 8 := by
  apply BitVec.eq_of_getLsbD_eq
  intro i hi
  rw [shiftIn_getLsbD _ _ _ hi, BitVec.getLsbD_setWidth, BitVec.getLsbD_concat]
  simp [hi]

theorem shiftIn_toNat {acc : Byte} (b : Bool) (h : acc.toNat < 2 ^ 7) :
    (shiftIn acc b).toNat = acc.toNat * 2 + b.toNat := by
  have hb := b.toNat_lt
  rw [shiftIn_eq_concat, BitVec.toNat_setWidth, BitVec.toNat_concat, Nat.mod_eq_of_lt (by omega)]

/-- Up to eight slots, the accumulator drops no bit. -/
theorem gather_lt (s : State) (first : Nat) {n : Nat} (hn : n ≤ 8) : (gather s first n).toNat < 2 ^ n := by
  induction n with
  | zero => exact Nat.one_pos
  | succ n ih =>
    have hacc := ih (by omega)
    have hpow : 2 ^ n ≤ 2 ^ 7 := Nat.pow_le_pow_right (by omega) (by omega)
    have hbit := (slotBit s (first + n)).toNat_lt
    rw [gather, shiftIn_toNat _ (by omega), Nat.pow_succ]
    omega

/-- The accumulator as a number: each slot weighs twice as much as the next one. -/
theorem gather_toNat (s : State) (first : Nat) {n : Nat} (hn : n ≤ 8) :
    (gather s first n).toNat = ∑ j ∈ Finset.range n, (slotBit s (first + j)).toNat * 2 ^ (n - 1 - j) := by
  induction n with
  | zero => rfl
  | succ n ih =>
    have hlt := gather_lt s first (show n ≤ 8 by omega)
    have hpow : 2 ^ n ≤ 2 ^ 7 := Nat.pow_le_pow_right (by omega) (by omega)
    have hdouble : ∀ j ∈ Finset.range n, (slotBit s (first + j)).toNat * 2 ^ (n - 1 - j) * 2 =
        (slotBit s (first + j)).toNat * 2 ^ (n + 1 - 1 - j) := fun j hj => by
      rw [Finset.mem_range] at hj
      rw [mul_assoc, ← pow_succ, show n - 1 - j + 1 = n + 1 - 1 - j by omega]
    rw [gather, shiftIn_toNat _ (by omega), ih (by omega), Finset.sum_mul, Finset.sum_congr rfl hdouble,
      Finset.sum_range_succ]
    simp

/-- States whose first `n` slots yield the same bits have the same bytes there (R86). -/
theorem lsbByte_congr_of_slots {s t : State} {n k : Nat} (h : ∀ i < n, slotBit s i = slotBit t i)
    (hk : 8 * (k + 1) ≤ n) : lsbByte s k = lsbByte t k :=
  lsbByte_congr fun j _ => h (8 * k + j) (by omega)

/-- Settles O31: `b_k` as a number, and the slots it comes from. -/
theorem lsbByteStreamIsTheSlotsLowBits : Obligations.LsbByteStreamIsTheSlotsLowBits := by
  constructor
  · intro s k
    rw [lsbByte, gather_toNat s _ le_rfl]
    simp only [slotBit, Bool.toNat, Bool.cond_eq_ite]
  · intro s t hcount halpha hbits
    have hslots : ∀ i < slotCount s, slotBit s i = slotBit t i := fun i hi => by
      rw [slotBit, slotBit, ← halpha]
      exact hbits i hi
    refine ⟨by rw [wholeBytes, wholeBytes, hcount], fun k hk => lsbByte_congr_of_slots hslots ?_⟩
    unfold wholeBytes at hk
    omega

/-! ### The delimiter in the stream -/

/-- The test of rule R89 after byte `n + 8`, by where the nine bytes begin. -/
theorem matchAt_add_eight (s : State) (n : Nat) :
    matchAt s (n + 8) ↔ ∀ i < 9, lsbByte s (n + i) = delim.getD i 0 := by
  simp [matchAt, delimLength, delimByte]

/-- No byte of the stream passes the test of rule R89. -/
theorem noMatch_iff (s : State) :
    (∀ k < wholeBytes s, ¬ matchAt s k) ↔
      ∀ k, 8 ≤ k → k < wholeBytes s → ∃ i < 9, lsbByte s (k - 8 + i) ≠ delim.getD i 0 := by
  refine forall_congr' fun k => ?_
  rw [matchAt, not_and, imp.swap]
  simp only [delimLength, delimByte, not_forall, exists_prop, ne_eq]

/-- The scan stops after the first window of nine bytes that holds the delimiter (R89, R90). -/
theorem stopsAt_add_eight_iff (s : State) (n : Nat) :
    stopsAt s (n + 8) ↔ n + 8 < wholeBytes s ∧ matchAt s (n + 8) ∧ ∀ m < n, ¬ matchAt s (m + 8) := by
  refine and_congr_right fun _ => and_congr_right fun _ => ⟨fun h m hm => h (m + 8) (by omega), fun h j hj hm => ?_⟩
  obtain ⟨m, rfl⟩ := Nat.exists_eq_add_of_le' hm.1
  exact h m (by omega) hm

/-! ### The ends of the command -/

/-- The ends of EXTRACT (R99): the grid decides how many slots it reads and how many bytes it stores, and what it
reports. -/
inductive ExtractEnds (s : State) : (slots bytes : Nat) → ErrKind → Word → Prop
  | noGrid : ¬ legalGrid s → ExtractEnds s 0 0 .invalidDimensions 0
  | message {n : Nat} : legalGrid s → stopsAt s (n + 8) → utf8Valid ((List.range n).map (lsbByte s)) = true →
      ExtractEnds s (8 * (n + 9)) (n + 9) .none (BitVec.ofNat 32 n)
  | notUtf8 {n : Nat} : legalGrid s → stopsAt s (n + 8) → utf8Valid ((List.range n).map (lsbByte s)) = false →
      ExtractEnds s (8 * (n + 9)) (n + 9) .invalidEncoding 0
  | noDelimiter : legalGrid s → (∀ k < wholeBytes s, ¬ matchAt s k) →
      ExtractEnds s (slotCount s) (wholeBytes s) .noHiddenMessage 0

/-- The state EXTRACT leaves once it has stored `bytes` bytes of the stream. -/
def extracted (s : State) (bytes : Nat) (err : ErrKind) (res : Word) : State :=
  finish { s with pay := storeBytes s bytes } err res

section
variable (s : State) (bytes : Nat) (err : ErrKind) (res : Word)

/-- It differs from `s` in PAY, `STATUS` and `RESULT` alone.  The new PAY is generalized first, so that comparing the
states does not unroll the loop. -/
theorem extracted_frame : extracted s bytes err res =
    { s with pay := (extracted s bytes err res).pay, result := res, err := err, done := true, busy := false } := by
  unfold extracted
  generalize storeBytes s bytes = p
  rfl

/-- PAY holds the stored bytes, and behind them what it held (R91). -/
theorem extracted_byte_pay (a : Nat) :
    (extracted s bytes err res).byte .pay a = if a < bytes then lsbByte s a else s.byte .pay a := by
  rw [extracted, State.byte_finish, State.byte_setPay_pay, storeBytes_read]

theorem extracted_byte_pix (a : Nat) : (extracted s bytes err res).byte .pix a = s.byte .pix a := by
  rw [extracted, State.byte_finish, State.byte_setPay_pix]

end

/-- Every state has an end. -/
theorem exists_extractEnds (s : State) : ∃ n m err res, ExtractEnds s n m err res := by
  by_cases hg : legalGrid s
  · rcases scanGrid_cases s with ⟨k, hk, -⟩ | ⟨hno, -⟩
    · have hlate : 8 ≤ k := hk.2.1.1
      obtain ⟨n, rfl⟩ := Nat.exists_eq_add_of_le' hlate
      cases hv : utf8Valid ((List.range n).map (lsbByte s))
      · exact ⟨_, _, _, _, .notUtf8 hg hk hv⟩
      · exact ⟨_, _, _, _, .message hg hk hv⟩
    · exact ⟨_, _, _, _, .noDelimiter hg hno⟩
  · exact ⟨_, _, _, _, .noGrid hg⟩

section
variable {s : State} {slots bytes : Nat} {err : ErrKind} {res : Word} (h : ExtractEnds s slots bytes err res)
include h

theorem ExtractEnds.reached : slotsReached .extract s = slots ∧ bytesReached .extract s = bytes := by
  cases h with
  | noGrid hbad => exact reached_eq_zero (.inr hbad)
  | message hg hk | notUtf8 hg hk => exact extract_reached_of_stopsAt hg hk
  | noDelimiter hg hno => exact extract_reached_of_noMatch hg hno

/-- EXTRACT answers the end of its grid, where the memory it reaches is populated. -/
theorem ExtractEnds.execExtract_eq (hpop : unpopulatedSpace s slots bytes = none) :
    execExtract s = .next (extracted s bytes err res) := by
  obtain ⟨hslots, hbytes⟩ := h.reached
  rw [← hslots, ← hbytes] at hpop
  have hanswer : ∀ hg : legalGrid s, execExtract s = .next (endScan s (scanGrid s)) := fun hg => by
    obtain ⟨hread, hwritten⟩ := extract_reached hg
    rw [hread, hwritten] at hpop
    exact (execExtract_next_iff hg).2 ⟨hpop, rfl⟩
  cases h with
  | noGrid hbad => exact if_pos ((dimsBad_eq_true_iff s).2 hbad)
  | @message n hg hk hv | @notUtf8 n hg hk hv =>
    rw [hanswer hg, scanGrid_found hk, Nat.add_sub_cancel, endScan, recovered_eq s n (n + 8 + 1) (by omega), hv]
    rfl
  | noDelimiter hg hno =>
    rw [hanswer hg, scanGrid_exhausted hno]
    rfl

/-- What the premise `populated` gives is enough. -/
theorem ExtractEnds.execExtract_of_populated (hpop : populatedFor .extract s) :
    execExtract s = .next (extracted s bytes err res) := by
  obtain ⟨rfl, rfl⟩ := h.reached
  exact h.execExtract_eq (reached_populated hpop)

/-- The end depends on the grid's stream only: not on what PAY and `PAY_LEN` hold (R97). -/
theorem ExtractEnds.of_stream_eq {u : State} (hg : legalGrid u ↔ legalGrid s) (hcount : slotCount u = slotCount s)
    (hbytes : ∀ k, lsbByte u k = lsbByte s k) : ExtractEnds u slots bytes err res := by
  have hwhole : wholeBytes u = wholeBytes s := by rw [wholeBytes, wholeBytes, hcount]
  have hmatch : ∀ k, matchAt u k ↔ matchAt s k := fun k => by simp only [matchAt, hbytes]
  have hstop : ∀ k, stopsAt u k ↔ stopsAt s k := fun k => by simp only [stopsAt, hwhole, hmatch]
  have hstream : lsbByte u = lsbByte s := funext hbytes
  cases h with
  | noGrid hbad => exact .noGrid (hg.not.2 hbad)
  | message hgs hk hv => exact .message (hg.2 hgs) ((hstop _).2 hk) (hstream ▸ hv)
  | notUtf8 hgs hk hv => exact .notUtf8 (hg.2 hgs) ((hstop _).2 hk) (hstream ▸ hv)
  | noDelimiter hgs hno =>
    rw [← hcount, ← hwhole]
    exact .noDelimiter (hg.2 hgs) fun k hk hm => hno k (hwhole ▸ hk) ((hmatch k).1 hm)

/-- NoHiddenMessage is the end of a legal grid whose stream holds no delimiter, and of no other (R94). -/
theorem ExtractEnds.noHiddenMessage_iff (hg : legalGrid s) :
    err = .noHiddenMessage ↔ ∀ k < wholeBytes s, ¬ matchAt s k := by
  cases h with
  | noGrid hbad => exact absurd hg hbad
  | message _ hk | notUtf8 _ hk => exact iff_of_false nofun fun hno => hno _ hk.1 hk.2.1
  | noDelimiter _ hno => exact iff_of_true rfl hno

/-- With NoHiddenMessage, the whole stream is stored and `RESULT` is 0 (R91, R94). -/
theorem ExtractEnds.of_noHiddenMessage (herr : err = .noHiddenMessage) : bytes = wholeBytes s ∧ res = 0 := by
  cases h with
  | noGrid | message | notUtf8 => cases herr
  | noDelimiter => exact ⟨rfl, rfl⟩

end

/-- A next state that EXTRACT answers is an end of its grid, all it reaches being populated. -/
theorem execExtract_next_ends {s t : State} (e : execExtract s = .next t) :
    ∃ n m err res, ExtractEnds s n m err res ∧ unpopulatedSpace s n m = none ∧ t = extracted s m err res := by
  obtain ⟨n, m, err, res, h⟩ := exists_extractEnds s
  have hpop : unpopulatedSpace s n m = none := by
    obtain ⟨rfl, rfl⟩ := h.reached
    rcases exec_by_reach .extract s with ⟨hpop, -⟩ | ⟨-, -, sp, -, hrefused⟩
    · exact hpop
    · cases hrefused.symm.trans e
  exact ⟨n, m, err, res, h, hpop, Host.Outcome.next.inj (e.symm.trans (h.execExtract_eq hpop))⟩

/-- EXTRACT of a populated grid whose stream holds the delimiter behind `n` bytes: the two ends, by whether those are
UTF-8 (R90 to R92). -/
theorem execExtract_of_stopsAt {s : State} {n : Nat} (hg : legalGrid s) (hpop : populatedFor .extract s)
    (hk : stopsAt s (n + 8)) :
    ∃ err res, execExtract s = .next (extracted s (n + 9) err res) ∧
      (utf8Valid ((List.range n).map (lsbByte s)) = true → err = .none ∧ res.toNat = n) ∧
      (utf8Valid ((List.range n).map (lsbByte s)) = false → err = .invalidEncoding ∧ res = 0) := by
  cases hv : utf8Valid ((List.range n).map (lsbByte s)) with
  | true =>
    have hn : n < 2 ^ 32 := by
      have hlast : n + 8 < wholeBytes s := hk.1
      have := wholeBytes_le s hg
      omega
    exact ⟨_, _, (ExtractEnds.message hg hk hv).execExtract_of_populated hpop,
      fun _ => ⟨rfl, by rw [BitVec.toNat_ofNat, Nat.mod_eq_of_lt hn]⟩, nofun⟩
  | false =>
    exact ⟨_, _, (ExtractEnds.notUtf8 hg hk hv).execExtract_of_populated hpop, nofun, fun _ => ⟨rfl, rfl⟩⟩

/-! ### The statements -/

theorem execExtract_of_not_legal {s : State} (hbad : ¬ legalGrid s) :
    execExtract s = .next (finish s .invalidDimensions 0) :=
  if_pos ((dimsBad_eq_true_iff s).2 hbad)

/-- Settles O32: the test of the dimensions comes first. -/
theorem extractRaisesInvalidDimensionsFirst : Obligations.ExtractRaisesInvalidDimensionsFirst := by
  intro s hbad
  exact execExtract_of_not_legal ((not_legalGrid_iff s).2 hbad)

/-- Settles O33: the ends of the command, each named by what its rule says of the stream. -/
theorem extractIsTheFunctionOfItsStream : Obligations.ExtractIsTheFunctionOfItsStream := by
  refine ⟨fun s => execExtract_of_not_legal, fun s hg hpop => ⟨fun hno => ?_, fun n hn hdelim hfirst => ?_⟩⟩
  · have h := ExtractEnds.noDelimiter hg ((noMatch_iff s).2 hno)
    exact ⟨_, h.execExtract_of_populated hpop, extracted_frame .., extracted_byte_pay _ _ _ _⟩
  · have hk : stopsAt s (n + 8) := by
      refine (stopsAt_add_eight_iff s n).2 ⟨hn, (matchAt_add_eight s n).2 hdelim, fun m hm hmatch => ?_⟩
      obtain ⟨i, hi, hne⟩ := hfirst m hm
      exact hne ((matchAt_add_eight s m).1 hmatch i hi)
    obtain ⟨err, res, e, hvalid, hinvalid⟩ := execExtract_of_stopsAt hg hpop hk
    exact ⟨_, e, extracted_frame .., extracted_byte_pay _ _ _ _, hvalid, hinvalid⟩

/-- Settles O34: the end tells whether a byte passes the test, and eight bytes never do. -/
theorem noHiddenMessageExactlyWithoutADelimiter : Obligations.NoHiddenMessageExactlyWithoutADelimiter := by
  intro s t hg e
  obtain ⟨n, m, err, res, h, -, rfl⟩ := execExtract_next_ends e
  have hiff : err = .noHiddenMessage ↔ ∀ k < wholeBytes s, ¬ matchAt s k := h.noHiddenMessage_iff hg
  refine ⟨hiff.trans (noMatch_iff s), fun hsmall => hiff.2 fun k hk hm => ?_, fun herr => ?_⟩
  · have hlate : 8 ≤ k := hm.1
    unfold wholeBytes at hk
    omega
  · obtain ⟨rfl, rfl⟩ := h.of_noHiddenMessage herr
    exact ⟨rfl, fun k hk => by rw [extracted_byte_pay, if_pos hk]⟩

/-- Settles O35: PIX is kept, and so is the stream, which alone decides the end. -/
theorem extractAgainGivesTheSame : Obligations.ExtractAgainGivesTheSame := by
  intro s t e
  obtain ⟨n, m, err, res, h, hpop, rfl⟩ := execExtract_next_ends e
  have hstream : ∀ k, lsbByte (extracted s m err res) k = lsbByte s k := fun _ => rfl
  refine ⟨rfl, ⟨_, (h.of_stream_eq (u := extracted s m err res) Iff.rfl rfl hstream).execExtract_eq hpop,
    rfl, rfl, ?_⟩, ?_⟩
  · intro sp a
    cases sp with
    | pix => exact extracted_byte_pix ..
    | pay =>
      rw [extracted_byte_pay, hstream, extracted_byte_pay]
      split <;> rfl
  · intro q l
    exact ⟨_, (h.of_stream_eq (u := { s with pay := q, payLen := l }) Iff.rfl rfl fun _ => rfl).execExtract_eq hpop,
      rfl, rfl⟩

end Sys2Proof.Machine
end

section
/-! PROOFS. EMBED and EXTRACT together (`43_extract.md` R95, R96): where the delimiter occurs in `PAY[0 .. L) ++ DELIM`
is where the scan of the embedded grid stops, and when a payload brings an early occurrence. -/

namespace Sys2Proof.Machine

/-! ### Occurrences of the delimiter -/

/-- An occurrence, byte by byte. -/
theorem delimAt_iff_getElem? (l : List Byte) (i : Nat) :
    delimAt l i ↔ ∀ j < delimLength, l[i + j]? = some (delimByte j) := by
  have hget : ∀ j, ((l.drop i).take delimLength)[j]? = if j < delimLength then l[i + j]? else none := fun j => by
    rw [List.getElem?_take, List.getElem?_drop]
  constructor
  · intro h j hj
    have hj' := hget j
    rwa [h, if_pos hj, delim_getElem?, if_pos hj, eq_comm] at hj'
  · intro h
    apply List.ext_getElem?
    intro j
    rw [hget, delim_getElem?]
    split
    · exact h j ‹_›
    · rfl

/-- The delimiter itself is an occurrence. -/
theorem delimAt_append_delim (P : List Byte) : delimAt (P ++ delim) P.length := by
  rw [delimAt, List.drop_left]
  rfl

/-- An occurrence at an offset of `P ++ DELIM` below the length of `P`, in terms of what follows the offset in `P`. -/
theorem delimAt_append_delim_iff {P : List Byte} {i : Nat} (hi : i ≤ P.length) :
    delimAt (P ++ delim) i ↔ (P.drop i ++ delim).take delimLength = delim := by
  rw [delimAt, List.drop_append_of_le_length hi]

/-- The borders of `###END###`: what is left of it behind its first `n` bytes begins the delimiter again (R95). -/
theorem delim_borders : ∀ n < delimLength, 0 < n →
    (delim.drop n = delim.take (delimLength - n) ↔ n = 6 ∨ n = 7 ∨ n = 8) := by
  decide

/-- A shorter list before the delimiter makes an early occurrence when it is the start of the delimiter up to a
border. -/
theorem take_append_delim_eq_iff {Q : List Byte} (hpos : 0 < Q.length) (hlen : Q.length < delimLength) :
    (Q ++ delim).take delimLength = delim ↔ Q = delim.take 6 ∨ Q = delim.take 7 ∨ Q = delim.take 8 := by
  have hborder := delim_borders Q.length hlen hpos
  rw [List.take_append, List.take_of_length_le hlen.le]
  constructor
  · intro h
    have hQ : Q = delim.take Q.length := by rw [← h, List.take_left]
    have hrest : delim.drop Q.length = delim.take (delimLength - Q.length) := by
      conv_lhs => rw [← h, List.drop_left]
    rcases hborder.1 hrest with hn | hn | hn <;> rw [hn] at hQ
    · exact .inl hQ
    · exact .inr (.inl hQ)
    · exact .inr (.inr hQ)
  · rintro (rfl | rfl | rfl) <;> rfl

/-- When a payload brings an early occurrence (R95): it contains the delimiter, or ends with the start of it up to a
border. -/
theorem exists_early_delimAt_iff (P : List Byte) :
    (∃ i < P.length, delimAt (P ++ delim) i) ↔
      (∃ X Y, P = X ++ delim ++ Y) ∨ (∃ X, P = X ++ delim.take 6) ∨ (∃ X, P = X ++ delim.take 7) ∨
        ∃ X, P = X ++ delim.take 8 := by
  constructor
  · rintro ⟨i, hi, hocc⟩
    have hcut : P = P.take i ++ P.drop i := (List.take_append_drop i P).symm
    rw [delimAt_append_delim_iff hi.le] at hocc
    by_cases hlong : delimLength ≤ (P.drop i).length
    · rw [List.take_append_of_le_length hlong] at hocc
      refine .inl ⟨P.take i, (P.drop i).drop delimLength, ?_⟩
      rw [List.append_assoc, ← hocc, List.take_append_drop, ← hcut]
    · have hpos : 0 < (P.drop i).length := by rw [List.length_drop]; omega
      rcases (take_append_delim_eq_iff hpos (Nat.lt_of_not_le hlong)).1 hocc with h | h | h <;> rw [h] at hcut
      · exact .inr (.inl ⟨_, hcut⟩)
      · exact .inr (.inr (.inl ⟨_, hcut⟩))
      · exact .inr (.inr (.inr ⟨_, hcut⟩))
  · have hborder : ∀ X Q : List Byte, Q = delim.take 6 ∨ Q = delim.take 7 ∨ Q = delim.take 8 → 0 < Q.length →
        Q.length < delimLength → ∃ i < (X ++ Q).length, delimAt (X ++ Q ++ delim) i := fun X Q hQ hpos hlen => by
      have hi : X.length < (X ++ Q).length := by rw [List.length_append]; omega
      refine ⟨X.length, hi, (delimAt_append_delim_iff hi.le).2 ?_⟩
      rw [List.drop_left]
      exact (take_append_delim_eq_iff hpos hlen).2 hQ
    rintro (⟨X, Y, rfl⟩ | ⟨X, rfl⟩ | ⟨X, rfl⟩ | ⟨X, rfl⟩)
    · have hi : X.length < (X ++ delim ++ Y).length := by simp [delimLength]
      refine ⟨X.length, hi, (delimAt_append_delim_iff hi.le).2 ?_⟩
      rw [List.append_assoc, List.drop_left, List.append_assoc]
      exact List.take_left' rfl
    · exact hborder X _ (.inl rfl) (by decide) (by decide)
    · exact hborder X _ (.inr (.inl rfl)) (by decide) (by decide)
    · exact hborder X _ (.inr (.inr rfl)) (by decide) (by decide)

/-! ### The scan of an embedded grid -/

@[simp] theorem length_payloadBytes (s : State) : (payloadBytes s).length = payloadLength s := by
  simp [payloadBytes]

/-- Grid `u` carries in its low bits what EMBED of `s` stores (R96). -/
structure Carries (u s : State) : Prop where
  fits : bitsNeeded s ≤ slotCount u
  bytes : ∀ k < payloadLength s + delimLength, lsbByte u k = streamByte s k

/-- A grid that has the low bits of the embedded one carries what was stored, whatever its other bits and its
dimensions. -/
theorem carries_of_slotBits {s t u : State} (e : exec .embed s = .next t) (herr : t.err = .none)
    (hcount : bitsNeeded s ≤ slotCount u) (hbits : ∀ n < bitsNeeded s, slotBit u n = slotBit t n) :
    Carries u s := by
  refine ⟨hcount, fun k hk => ?_⟩
  rcases execEmbed_next_cases e with ⟨err, hne, rfl⟩ | ⟨-, -, -, rfl⟩
  · exact absurd herr hne
  · rw [← lsbByte_embedded s hk]
    exact lsbByte_congr_of_slots hbits (by unfold bitsNeeded; omega)

section
variable {s u : State} (h : Carries u s)
include h

/-- The scan's test passes where the delimiter occurs in the stored stream. -/
theorem Carries.matchAt_iff {i : Nat} (hi : i ≤ payloadLength s) :
    matchAt u (i + 8) ↔ delimAt (payloadBytes s ++ delim) i := by
  rw [matchAt_add_eight, delimAt_iff_getElem?]
  refine forall₂_congr fun j (hj : j < delimLength) => ?_
  rw [h.bytes _ (by omega), getElem?_payloadBytes_append_delim s (by omega), Option.some_inj]
  rfl

/-- The scan stops at the first occurrence. -/
theorem Carries.stopsAt {i : Nat} (hi : i ≤ payloadLength s) (hocc : delimAt (payloadBytes s ++ delim) i)
    (hfirst : ∀ j < i, ¬ delimAt (payloadBytes s ++ delim) j) : stopsAt u (i + 8) := by
  have hwhole : i + 8 < wholeBytes u := by
    have hfits := h.fits
    unfold bitsNeeded delimLength at hfits
    unfold wholeBytes
    omega
  exact (stopsAt_add_eight_iff u i).2 ⟨hwhole, (h.matchAt_iff hi).2 hocc, fun m hm hmatch =>
    hfirst m hm ((h.matchAt_iff (by omega)).1 hmatch)⟩

/-- The stream of the grid begins with the payload. -/
theorem Carries.lsbByte_eq {k : Nat} (hk : k < payloadLength s) : lsbByte u k = s.byte .pay k := by
  rw [h.bytes k (by omega), streamByte, if_pos hk]

theorem Carries.map_lsbByte {i : Nat} (hi : i ≤ payloadLength s) :
    (List.range i).map (lsbByte u) = (payloadBytes s).take i := by
  rw [payloadBytes, ← List.map_take, List.take_range, Nat.min_eq_left hi]
  exact List.map_congr_left fun k hk => h.lsbByte_eq ((List.mem_range.1 hk).trans_le hi)

/-- EXTRACT of the grid stops at the least occurrence, at or before the stored delimiter, and delivers the payload up to
there (R95). -/
theorem Carries.execExtract (hg : legalGrid u) (hpop : populatedFor .extract u) :
    ∃ i ≤ payloadLength s,
      delimAt (payloadBytes s ++ delim) i ∧ (∀ j < i, ¬ delimAt (payloadBytes s ++ delim) j) ∧
      ∃ v, exec .extract u = .next v ∧ (∀ k < i, v.byte .pay k = s.byte .pay k) ∧
        (utf8Valid ((payloadBytes s).take i) = true → v.err = .none ∧ v.result.toNat = i) ∧
        (utf8Valid ((payloadBytes s).take i) = false → v.err = .invalidEncoding ∧ v.result = 0) := by
  classical
  have hlast : delimAt (payloadBytes s ++ delim) (payloadLength s) := by
    rw [← length_payloadBytes]
    exact delimAt_append_delim _
  obtain ⟨i, hocc, hfirst⟩ := Nat.findX ⟨_, hlast⟩
  have hi : i ≤ payloadLength s := Nat.le_of_not_lt fun hlt => hfirst _ hlt hlast
  obtain ⟨err, res, e, hvalid, hinvalid⟩ := execExtract_of_stopsAt hg hpop (h.stopsAt hi hocc hfirst)
  rw [h.map_lsbByte hi] at hvalid hinvalid
  refine ⟨i, hi, hocc, hfirst, _, e, fun k hk => ?_, hvalid, hinvalid⟩
  rw [extracted_byte_pay, if_pos (by omega), h.lsbByte_eq (by omega)]

end

/-- Settles O38: the least occurrence in the stored stream, and the two ways a payload can bring an early one. -/
theorem extractStopsAtTheFirstDelimiter : Obligations.ExtractStopsAtTheFirstDelimiter := by
  refine ⟨?_, exists_early_delimAt_iff⟩
  intro s t u e herr hg hpop _ hcount hbits
  exact (carries_of_slotBits e herr hcount hbits).execExtract hg hpop

/-- Settles O37: without an early occurrence the least one is the stored delimiter's own. -/
theorem extractRecoversWhatEmbedStored : Obligations.ExtractRecoversWhatEmbedStored := by
  intro s t u e herr hg hpop _ hcount hbits hnone
  obtain ⟨i, hi, hocc, -, v, hv, hbytes, hvalid, hinvalid⟩ :=
    (carries_of_slotBits e herr hcount hbits).execExtract hg hpop
  obtain rfl : i = payloadLength s := hi.antisymm (Nat.le_of_not_lt fun hlt => hnone i hlt hocc)
  rw [List.take_of_length_le (length_payloadBytes s).le] at hvalid hinvalid
  refine ⟨v, hv, hbytes, fun hutf8 => ?_, hinvalid⟩
  obtain ⟨hok, hres⟩ := hvalid hutf8
  exact ⟨hok, BitVec.eq_of_toNat_eq hres⟩

end Sys2Proof.Machine
end

section
/-! PROOFS. Errors and their report (`60_exceptions.md` R100, R102, R103, R106, R115): what loss of power leaves, which
actions keep an outcome, in what order the tests are made, and that an error is precise. -/

namespace Sys2Proof.Machine

/-! ### The codes -/

/-- Settles O15: the codes of the table, and the largest of them. -/
theorem errorCodesAreThoseOfTheTable : Obligations.ErrorCodesAreThoseOfTheTable := by
  refine ⟨rfl, rfl, rfl, rfl, rfl, rfl, fun e => ?_⟩
  cases e <;> decide

/-! ### Power -/

/-- When power returns, nothing of either memory has been written (R115, R120). -/
theorem byte_hostPowerCycle (s : State) (sp : Space) (a : Nat) :
    (hostPowerCycle s).byte sp a = Config.powerOnByte (s.epoch + 1) sp a := by
  cases sp <;> exact Memory.read_nil _ a

theorem byte_reset (sp : Space) (a : Nat) : State.reset.byte sp a = Config.powerOnByte 0 sp a := by
  cases sp <;> exact Memory.read_nil _ a

/-- Settles O3: in both states the memories list no byte. -/
theorem powerCycleLosesBothMemories : Obligations.PowerCycleLosesBothMemories :=
  ⟨byte_reset, fun s => ⟨hostPowerCycle s, rfl, rfl, rfl, rfl, rfl, rfl, rfl, rfl, rfl, byte_hostPowerCycle s⟩⟩

/-! ### How long an outcome stays -/

/-- An action on an idle block that neither writes `CMD` nor resets the block keeps the outcome (R106). -/
theorem hostAct_keeps_outcome {s t : State} {a : HostStep} (hb : s.busy = false) (hcmd : ∀ v, a ≠ .regWrite 0 v)
    (ha : ¬ a.resets) (e : hostAct s a = .next t) :
    t.busy = false ∧ t.done = s.done ∧ t.err = s.err ∧ t.result = s.result := by
  cases a with
  | regRead n => cases e; exact ⟨hb, rfl, rfl, rfl⟩
  | regWrite n v =>
    have hn : n ≠ 0 := fun h => hcmd v (by rw [h])
    rw [hostAct_regWrite_idle hb e]
    exact ⟨(regWriteIdle_busy s n v hn).trans hb, regWriteIdle_done s n v hn, regWriteIdle_err s n v hn,
      regWriteIdle_result s n v hn⟩
  | memRead sp a =>
    obtain ⟨-, -, rfl⟩ := hostMemRead_next e
    exact ⟨hb, rfl, rfl, rfl⟩
  | memWrite sp a v =>
    obtain ⟨-, -, rfl⟩ := hostMemWrite_next e
    simp [hb]
  | wait =>
    cases e
    rcases hostWait_cases s with ⟨-, e⟩ | ⟨-, e⟩ <;> rw [e] <;> exact ⟨hb, rfl, rfl, rfl⟩
  | reset => exact absurd (.inl rfl) ha
  | powerCycle => exact absurd (.inr rfl) ha

/-- Settles O14: a step of an idle block is the host's action or none; a `CMD` write accepts its word or reports it. -/
theorem outcomeStaysUntilTheNextCommand : Obligations.OutcomeStaysUntilTheNextCommand := by
  constructor
  · intro s t hb e hcmd hreset hpower
    rcases step_cases e with ⟨-, -, rfl⟩ | ⟨a, as, ts, hs, -, e⟩ | ⟨-, -, hbusy, -⟩
    · exact ⟨hb, rfl, rfl, rfl⟩
    · refine hostAct_keeps_outcome (s := { s with script := as, turns := ts }) hb ?_ ?_ e
      · rintro v rfl
        exact hcmd v as hs
      · rintro (rfl | rfl)
        · exact hreset as hs
        · exact hpower as hs
    · simp [hb] at hbusy
  · intro s v hb
    obtain ⟨haccept, hreport⟩ := commandWriteAcceptsOrReports s v hb
    by_cases hd : ∃ i, decode v = .ok i
    · obtain ⟨i, hd⟩ := hd
      exact ⟨_, haccept i hd, rfl, fun _ _ => ⟨rfl, rfl, rfl⟩⟩
    · rw [not_exists] at hd
      exact ⟨_, hreport hd, rfl, fun i hi => absurd hi (hd i)⟩

/-! ### The order of the tests -/

/-- The next states a command can answer, each with the tests of R103 that lead to it. -/
inductive CommandOutcome (s : State) : Instr → State → Prop
  | noGrid {i : Instr} : ¬ legalGrid s → CommandOutcome s i (finish s .invalidDimensions 0)
  | counted : legalGrid s → CommandOutcome s .capacity (finish s .none (BitVec.ofNat 32 (wholeBytes s)))
  | tooLong : legalGrid s → slotCount s < bitsNeeded s → CommandOutcome s .embed (finish s .capacityExceeded 0)
  | stored : legalGrid s → bitsNeeded s ≤ slotCount s → CommandOutcome s .embed (embedded s)
  | message {n : Nat} : legalGrid s → stopsAt s (n + 8) →
      CommandOutcome s .extract (extracted s (n + 9) .none (BitVec.ofNat 32 n))
  | notUtf8 {n : Nat} : legalGrid s → stopsAt s (n + 8) →
      CommandOutcome s .extract (extracted s (n + 9) .invalidEncoding 0)
  | noDelimiter : legalGrid s → (∀ k < wholeBytes s, ¬ matchAt s k) →
      CommandOutcome s .extract (extracted s (wholeBytes s) .noHiddenMessage 0)

/-- The test of the dimensions is every command's first. -/
theorem exec_of_not_legal {s : State} (hbad : ¬ legalGrid s) (i : Instr) :
    exec i s = .next (finish s .invalidDimensions 0) := by
  cases i with
  | capacity => exact if_pos ((dimsBad_eq_true_iff s).2 hbad)
  | embed => exact execEmbed_of_not_legal hbad
  | extract => exact execExtract_of_not_legal hbad

/-- Whatever next state a command answers is one of its outcomes. -/
theorem exec_outcome {i : Instr} {s t : State} (e : exec i s = .next t) : CommandOutcome s i t := by
  by_cases hg : legalGrid s
  · cases i with
    | capacity =>
      rw [(execCapacity_next_iff hg).1 e]
      exact .counted hg
    | embed =>
      rcases (execEmbed_next_iff hg).1 e with ⟨hover, rfl⟩ | ⟨hfit, -, rfl⟩
      · exact .tooLong hg hover
      · exact .stored hg hfit
    | extract =>
      obtain ⟨n, m, err, res, h, -, rfl⟩ := execExtract_next_ends e
      cases h with
      | noGrid hbad => exact absurd hg hbad
      | message _ hk _ => exact .message hg hk
      | notUtf8 _ hk _ => exact .notUtf8 hg hk
      | noDelimiter _ hno => exact .noDelimiter hg hno
  · rw [exec_of_not_legal hg] at e
    cases e
    exact .noGrid hg

section
variable {s t : State}

/-- A command on a legal grid reports neither of the errors that stand before its own tests. -/
theorem CommandOutcome.err_of_legal {i : Instr} (h : CommandOutcome s i t) (hg : legalGrid s) :
    t.err ≠ .invalidDimensions ∧ t.err ≠ .illegalCommand := by
  cases h with
  | noGrid hbad => exact absurd hg hbad
  | counted | tooLong | stored | message | notUtf8 | noDelimiter => exact ⟨nofun, nofun⟩

theorem CommandOutcome.err_of_capacity (h : CommandOutcome s .capacity t) :
    t.err = .none ∨ t.err = .invalidDimensions := by
  cases h with
  | noGrid => exact .inr rfl
  | counted => exact .inl rfl

theorem CommandOutcome.err_of_embed (h : CommandOutcome s .embed t) :
    t.err = .none ∨ t.err = .invalidDimensions ∨ t.err = .capacityExceeded := by
  cases h with
  | noGrid => exact .inr (.inl rfl)
  | tooLong => exact .inr (.inr rfl)
  | stored => exact .inl rfl

theorem CommandOutcome.err_of_extract (h : CommandOutcome s .extract t) : t.err ≠ .capacityExceeded := by
  cases h with
  | noGrid | message | notUtf8 | noDelimiter => exact nofun

/-- The first delimiter found decides between success and InvalidEncoding. -/
theorem CommandOutcome.recovers_iff (h : CommandOutcome s .extract t) :
    t.err = .none ∨ t.err = .invalidEncoding ↔ legalGrid s ∧ ∃ k, stopsAt s k := by
  cases h with
  | noGrid hbad => exact iff_of_false nofun fun ⟨hg, _⟩ => hbad hg
  | message hg hk => exact iff_of_true (.inl rfl) ⟨hg, _, hk⟩
  | notUtf8 hg hk => exact iff_of_true (.inr rfl) ⟨hg, _, hk⟩
  | noDelimiter _ hno => exact iff_of_false nofun fun ⟨_, k, hk, hmatch, _⟩ => hno k hk hmatch

end

/-- Settles O39: by the outcome of the command. -/
theorem firstFailingTestReports : Obligations.FirstFailingTestReports := by
  intro s
  refine ⟨fun hb => hostAct_regWrite_of_busy hb 0, fun hb v t hd e => ?_,
    fun hbad i => ⟨_, exec_of_not_legal hbad i, rfl⟩, fun hg i t e => (exec_outcome e).err_of_legal hg,
    fun t e => (exec_outcome e).err_of_capacity, fun t e => (exec_outcome e).err_of_embed,
    fun t e => (exec_outcome e).err_of_extract, fun t e => (exec_outcome e).recovers_iff⟩
  obtain ⟨-, hreport⟩ := commandWriteAcceptsOrReports s v hb
  cases (hreport hd).symm.trans e
  rfl

/-! ### Precision -/

section
variable {i : Instr} {s t : State} (h : CommandOutcome s i t)
include h

/-- An error reports no value and leaves PIX (R102, R104). -/
theorem CommandOutcome.result_and_pix_of_error (herr : t.err ≠ .none) : t.result = 0 ∧ t.pix = s.pix := by
  cases h with
  | noGrid | tooLong | notUtf8 | noDelimiter => exact ⟨rfl, rfl⟩
  | counted | stored | message => exact absurd rfl herr

/-- An error found before the scan leaves PAY (R102). -/
theorem CommandOutcome.pay_of_error (herr : t.err ≠ .none) (hscan : i ≠ .extract ∨ t.err = .invalidDimensions) :
    t.pay = s.pay := by
  cases h with
  | noGrid | tooLong => rfl
  | counted | stored | message => exact absurd rfl herr
  | notUtf8 | noDelimiter => rcases hscan with hi | hdims <;> contradiction

/-- With NoHiddenMessage PAY holds the whole stream (R91, R94). -/
theorem CommandOutcome.pay_of_noHiddenMessage (herr : t.err = .noHiddenMessage) (k : Nat) :
    t.byte .pay k = if k < wholeBytes s then lsbByte s k else s.byte .pay k := by
  cases h with
  | noDelimiter => exact extracted_byte_pay ..
  | noGrid | counted | tooLong | stored | message | notUtf8 => contradiction

/-- With InvalidEncoding it holds the stream as far as the delimiter (R91, R92). -/
theorem CommandOutcome.pay_of_invalidEncoding (herr : t.err = .invalidEncoding) :
    ∃ n, stopsAt s n ∧ ∀ k, t.byte .pay k = if k < n + 1 then lsbByte s k else s.byte .pay k := by
  cases h with
  | notUtf8 _ hk => exact ⟨_, hk, extracted_byte_pay _ _ _ _⟩
  | noGrid | counted | tooLong | stored | message | noDelimiter => contradiction

end

/-- Settles O40: an illegal word changes `STATUS` and `RESULT` only, and each error of a command is one of its
outcomes. -/
theorem errorsLeaveNoPartialWrites : Obligations.ErrorsLeaveNoPartialWrites := by
  constructor
  · intro s t v hb hd e
    obtain ⟨-, hreport⟩ := commandWriteAcceptsOrReports s v hb
    cases (hreport hd).symm.trans e
    exact ⟨rfl, rfl, rfl, rfl, rfl, rfl⟩
  · intro i s t e herr
    have h := exec_outcome e
    obtain ⟨hresult, hpix⟩ := h.result_and_pix_of_error herr
    obtain ⟨halpha, hwidth, hheight, hpayLen⟩ := operands_of_exec e
    exact ⟨hresult, halpha, hwidth, hheight, hpayLen, hpix, h.pay_of_error herr, h.pay_of_noHiddenMessage,
      h.pay_of_invalidEncoding⟩

end Sys2Proof.Machine
end

section
/-! PROOFS. A reset of a busy block (`70_reset_and_hazards.md` R121, U2, D19): what the abandoned command leaves of the
memory it was to write. -/

namespace Sys2Proof.Machine

/-! ### The loops of an abandoned command -/

/-- Whichever slots land, a byte of PIX is old, or is a slot of the loop and holds its updated byte (R80, R121). -/
theorem writeSlots_read_cases (s : State) (lands : Nat → Bool) (m a : Nat) :
    (writeSlots s lands m).read (Config.powerOnByte s.epoch .pix) a = s.byte .pix a ∨
    ∃ n < m, a = slotAddr s.alpha n ∧
      (writeSlots s lands m).read (Config.powerOnByte s.epoch .pix) a = setLsb (s.byte .pix a) (streamBit s n) := by
  by_cases h : ∃ n < m, a = slotAddr s.alpha n
  · obtain ⟨n, hn, rfl⟩ := h
    rw [writeSlots_read_slot s lands m n hn]
    cases lands (slotAddr s.alpha n) with
    | false => exact .inl rfl
    | true => exact .inr ⟨n, hn, rfl, rfl⟩
  · push Not at h
    exact .inl (writeSlots_read_other s lands m a h)

/-- Whichever bytes land, a byte of PAY is old, or lies below the loop's end and holds `b_k` (R86, R121). -/
theorem writeBytes_read_cases (s : State) (lands : Nat → Bool) (m a : Nat) :
    (writeBytes s lands m).read (Config.powerOnByte s.epoch .pay) a = s.byte .pay a ∨
    a < m ∧ (writeBytes s lands m).read (Config.powerOnByte s.epoch .pay) a = lsbByte s a := by
  rw [writeBytes_read]
  by_cases h : a < m ∧ lands a = true
  · exact .inr ⟨h.1, if_pos h⟩
  · exact .inl (if_neg h)

/-! ### What a reset answers, by the command it abandons -/

section
variable {s : State}

/-- An abandoned EMBED: the registers are cleared, and only a command that passes its checks has written PIX, in slots
of its stream (R76, R77, R121). -/
theorem abandonEmbed_of_populated (hpop : populatedFor .embed s) :
    ∃ p d, abandonEmbed s = .next (clearRegisters { s with pix := p, draws := d }) ∧
      ∀ a, p.read (Config.powerOnByte s.epoch .pix) a = s.byte .pix a ∨
        legalGrid s ∧ bitsNeeded s ≤ slotCount s ∧ ∃ n < bitsNeeded s, a = slotAddr s.alpha n ∧
          p.read (Config.powerOnByte s.epoch .pix) a = setLsb (s.byte .pix a) (streamBit s n) := by
  unfold abandonEmbed
  split
  next => exact ⟨s.pix, s.draws, rfl, fun a => .inl rfl⟩
  next hpass =>
    rw [Bool.or_eq_true, not_or, Bool.not_eq_true, dimsBad_eq_false_iff, decide_eq_true_eq, Nat.not_lt] at hpass
    obtain ⟨hg, hfit⟩ := hpass
    obtain ⟨hslots, hbytes⟩ := embed_reached_of_fits hg hfit
    have hreach := reached_populated hpop
    rw [hslots, hbytes] at hreach
    rw [hreach]
    refine ⟨_, _, rfl, fun a => (writeSlots_read_cases s (Config.landed s.draws) _ a).imp_right fun hslot => ?_⟩
    exact ⟨hg, hfit, hslot⟩

/-- An abandoned EXTRACT: the registers are cleared, and only on a legal grid has PAY been written, below `T div 8`
(R88, R121). -/
theorem abandonExtract_of_populated (hpop : populatedFor .extract s) :
    ∃ q d, abandonExtract s = .next (clearRegisters { s with pay := q, draws := d }) ∧
      ∀ a, q.read (Config.powerOnByte s.epoch .pay) a = s.byte .pay a ∨
        legalGrid s ∧ a < wholeBytes s ∧ q.read (Config.powerOnByte s.epoch .pay) a = lsbByte s a := by
  unfold abandonExtract
  split
  next => exact ⟨s.pay, s.draws, rfl, fun a => .inl rfl⟩
  next hpass =>
    have hg : legalGrid s := (dimsBad_eq_false_iff s).1 (Bool.not_eq_true _ ▸ hpass)
    obtain ⟨hslots, hbytes⟩ := extract_reached hg
    have hreach : scanUnpopulated s = none := by
      rw [scanUnpopulated, ← hslots, ← hbytes]
      exact reached_populated hpop
    rw [hreach]
    refine ⟨_, _, rfl, fun a => (writeBytes_read_cases s (Config.landed s.draws) _ a).imp_right fun hbyte => ?_⟩
    exact ⟨hg, hbyte⟩

/-- A reset of a busy block is the one of the command in execution (R62, R121). -/
theorem hostAct_reset_busy {i : Instr} (hb : s.busy = true) (hop : opInstr s.op = some i) :
    hostAct s .reset = match i with
      | .capacity => .next (clearRegisters s)
      | .embed => abandonEmbed s
      | .extract => abandonExtract s := by
  simp only [hostAct, hostReset, hb, hop]
  cases i <;> rfl

end

/-- Settles O2: by the command in execution.  CAPACITY writes no memory, and of the other two the loop that was cut
short leaves each byte old or new. -/
theorem resetOfABusyBlockAbandonsItsCommand : Obligations.ResetOfABusyBlockAbandonsItsCommand := by
  intro s i hb hop hpop
  rw [hostAct_reset_busy hb hop]
  cases i with
  | capacity =>
    exact ⟨_, rfl, rfl, rfl, rfl, rfl, rfl, rfl, rfl, rfl, fun _ => State.byte_clearRegisters s, nofun, nofun⟩
  | embed =>
    obtain ⟨p, d, e, hpix⟩ := abandonEmbed_of_populated hpop
    exact ⟨_, e, rfl, rfl, rfl, rfl, rfl, rfl, rfl, rfl, nofun, fun _ => ⟨fun _ => rfl, hpix⟩, nofun⟩
  | extract =>
    obtain ⟨q, d, e, hpay⟩ := abandonExtract_of_populated hpop
    exact ⟨_, e, rfl, rfl, rfl, rfl, rfl, rfl, rfl, rfl, nofun, nofun, fun _ => ⟨fun _ => rfl, hpay⟩⟩

end Sys2Proof.Machine
end
